-- ==== Sys2Proof/Word.lean ====
section
/-! DEFINITION. The value types of the CHIP-8 CORE (spec/00_scope.md R8 to R10): bytes, 16-bit words, nibbles,
12-bit addresses. Every value is unsigned (R8); widening is `setWidth`, the spec's `zext_N` (R9). -/

namespace Sys2Proof

/-- An 8-bit value: a general register, a timer, a byte of memory (R20, R28, R60). -/
abbrev Byte := BitVec 8

/-- A 16-bit value: an instruction word, `PC`, `I`, a call-stack entry (R24 to R26, R90). -/
abbrev Word := BitVec 16

/-- A 4-bit field of an instruction word (R10); the row count `n` of DRW. -/
abbrev Nibble := BitVec 4

/-- A register number: the field `x` or `y` (R10), or `WAITREG` (R33). Every value names a register (R20). -/
abbrev Reg := BitVec 4

/-- The 12-bit field `nnn` (R10, R93). -/
abbrev Imm12 := BitVec 12

end Sys2Proof
end

