-- ==== Sys2Proof/Syntax.lean ====
section
/-! DEFINITION. The instruction set (spec/30_encoding.md R95): one constructor per row of spec/opcode_table.json, in its
order, with the operand fields of R92 and R93. -/

namespace Sys2Proof

/-- The 35 instruction patterns of R95. The comment of each gives its pattern and the rule of its meaning. -/
inductive Instr where
  /-- 00E0, R190. -/
  | cls
  /-- 00EE, R140. -/
  | ret
  /-- 0nnn other than 00E0 and 00EE, R141. -/
  | sys (nnn : Imm12)
  /-- 1nnn, R142. -/
  | jp (nnn : Imm12)
  /-- 2nnn, R143. -/
  | call (nnn : Imm12)
  /-- 3xkk, R144. -/
  | seImm (x : Reg) (kk : Byte)
  /-- 4xkk, R145. -/
  | sneImm (x : Reg) (kk : Byte)
  /-- 5xy0, R146. -/
  | seReg (x y : Reg)
  /-- 6xkk, R160. -/
  | ldImm (x : Reg) (kk : Byte)
  /-- 7xkk, R161. -/
  | addImm (x : Reg) (kk : Byte)
  /-- 8xy0, R162. -/
  | ldReg (x y : Reg)
  /-- 8xy1, R163. -/
  | orReg (x y : Reg)
  /-- 8xy2, R164. -/
  | andReg (x y : Reg)
  /-- 8xy3, R165. -/
  | xorReg (x y : Reg)
  /-- 8xy4, R167. -/
  | addReg (x y : Reg)
  /-- 8xy5, R168. -/
  | subReg (x y : Reg)
  /-- 8xy6, R169; `y` is decoded even when `SHIFT_SOURCE = VX` ignores it (R92). -/
  | shr (x y : Reg)
  /-- 8xy7, R170. -/
  | subn (x y : Reg)
  /-- 8xyE, R171. -/
  | shl (x y : Reg)
  /-- 9xy0, R147. -/
  | sneReg (x y : Reg)
  /-- Annn, R180. -/
  | ldI (nnn : Imm12)
  /-- Bnnn, R148. -/
  | jpV0 (nnn : Imm12)
  /-- Cxkk, R172. -/
  | rnd (x : Reg) (kk : Byte)
  /-- Dxyn, R191. -/
  | drw (x y : Reg) (n : Nibble)
  /-- Ex9E, R200. -/
  | skp (x : Reg)
  /-- ExA1, R201. -/
  | sknp (x : Reg)
  /-- Fx07, R202: LD Vx,DT. -/
  | ldVxDT (x : Reg)
  /-- Fx0A, R203: LD Vx,K. -/
  | ldVxK (x : Reg)
  /-- Fx15, R204: LD DT,Vx. -/
  | ldDTVx (x : Reg)
  /-- Fx18, R205: LD ST,Vx. -/
  | ldSTVx (x : Reg)
  /-- Fx1E, R181: ADD I,Vx. -/
  | addI (x : Reg)
  /-- Fx29, R182: LD F,Vx. -/
  | ldF (x : Reg)
  /-- Fx33, R183: LD B,Vx. -/
  | ldB (x : Reg)
  /-- Fx55, R184: LD [I],Vx. -/
  | storeRegs (x : Reg)
  /-- Fx65, R185: LD Vx,[I]. -/
  | loadRegs (x : Reg)
deriving DecidableEq, Repr

end Sys2Proof
end

