-- ==== Sys2Proof/Decode.lean ====
section
/-! DEFINITION. Decoding (spec/30_encoding.md R90 to R99) and encoding of the 16-bit instruction words. Decoding is total:
every word is one of the 35 instructions or is rejected by name (R96, R97). It reads nothing but the word (R96). -/

namespace Sys2Proof

/-! ## The fields of a word (R10, R91) -/

/-- `hi = bits[15:12]`. -/
def opHi (w : Word) : Nibble := w.extractLsb' 12 4
/-- `x = bits[11:8]`. -/
def opX (w : Word) : Reg := w.extractLsb' 8 4
/-- `y = bits[7:4]`. -/
def opY (w : Word) : Reg := w.extractLsb' 4 4
/-- `n = bits[3:0]`. -/
def opN (w : Word) : Nibble := w.extractLsb' 0 4
/-- `kk = bits[7:0]`. -/
def opKK (w : Word) : Byte := w.extractLsb' 0 8
/-- `nnn = bits[11:0]`. -/
def opNNN (w : Word) : Imm12 := w.extractLsb' 0 12

/-! ## The formats put together (R92) -/

/-- Format NNN: `hnnn`. -/
def wordNNN (h : Nibble) (nnn : Imm12) : Word := h.setWidth 16 <<< 12 ||| nnn.setWidth 16
/-- Formats XKK (`hxkk`) and X (`hxff`, whose fixed low byte stands in the place of `kk`). -/
def wordXKK (h : Nibble) (x : Reg) (kk : Byte) : Word :=
  h.setWidth 16 <<< 12 ||| x.setWidth 16 <<< 8 ||| kk.setWidth 16
/-- Formats XYN (`hxyn`) and XY (`hxyf`, whose fixed low nibble stands in the place of `n`). -/
def wordXYN (h : Nibble) (x y : Reg) (n : Nibble) : Word :=
  h.setWidth 16 <<< 12 ||| x.setWidth 16 <<< 8 ||| y.setWidth 16 <<< 4 ||| n.setWidth 16

/-- The word of two bytes, the byte at the lower address first: `(MEM[a] << 8) | MEM[a + 1]` (R63, R64). -/
def wordOfBytes (high low : Byte) : Word := high.setWidth 16 <<< 8 ||| low.setWidth 16
/-- Bits 15 to 8 of a word: the byte stored at the lower address (R64, R90). -/
def highByte (w : Word) : Byte := w.extractLsb' 8 8
/-- Bits 7 to 0 of a word: the byte stored at the higher address (R64, R90). -/
def lowByte (w : Word) : Byte := w.extractLsb' 0 8

/-! ## Decoding (R94 to R97) -/

/-- Family 0: the whole word selects (R94, R96): CLS and RET are tested before SYS. -/
def decode0 (w : Word) : Instr :=
  if w = 0x00E0#16 then .cls
  else if w = 0x00EE#16 then .ret
  else .sys (opNNN w)

/-- Family 8: `n` selects; 8, 9, A, B, C, D and F are unknown (R94, R97; the nibbles 1 to 7 are the spec's decision D11). -/
def decode8 (w : Word) : Option Instr :=
  match opN w with
  | 0x0 => some (.ldReg (opX w) (opY w))
  | 0x1 => some (.orReg (opX w) (opY w))
  | 0x2 => some (.andReg (opX w) (opY w))
  | 0x3 => some (.xorReg (opX w) (opY w))
  | 0x4 => some (.addReg (opX w) (opY w))
  | 0x5 => some (.subReg (opX w) (opY w))
  | 0x6 => some (.shr (opX w) (opY w))
  | 0x7 => some (.subn (opX w) (opY w))
  | 0xE => some (.shl (opX w) (opY w))
  | _ => none

/-- Family E: `kk` selects (R94). -/
def decodeE (w : Word) : Option Instr :=
  if opKK w = 0x9E#8 then some (.skp (opX w))
  else if opKK w = 0xA1#8 then some (.sknp (opX w))
  else none

/-- Family F: `kk` selects (R94; which of 07 and 15 reads is the spec's decision D30). -/
def decodeF (w : Word) : Option Instr :=
  if opKK w = 0x07#8 then some (.ldVxDT (opX w))
  else if opKK w = 0x0A#8 then some (.ldVxK (opX w))
  else if opKK w = 0x15#8 then some (.ldDTVx (opX w))
  else if opKK w = 0x18#8 then some (.ldSTVx (opX w))
  else if opKK w = 0x1E#8 then some (.addI (opX w))
  else if opKK w = 0x29#8 then some (.ldF (opX w))
  else if opKK w = 0x33#8 then some (.ldB (opX w))
  else if opKK w = 0x55#8 then some (.storeRegs (opX w))
  else if opKK w = 0x65#8 then some (.loadRegs (opX w))
  else none

/-- The instruction a word is, `none` for an unknown opcode: by `hi` first, then by the family's sub-field (R94, R123). -/
def decodeWord (w : Word) : Option Instr :=
  match opHi w with
  | 0x0 => some (decode0 w)
  | 0x1 => some (.jp (opNNN w))
  | 0x2 => some (.call (opNNN w))
  | 0x3 => some (.seImm (opX w) (opKK w))
  | 0x4 => some (.sneImm (opX w) (opKK w))
  | 0x5 => if opN w = 0 then some (.seReg (opX w) (opY w)) else none
  | 0x6 => some (.ldImm (opX w) (opKK w))
  | 0x7 => some (.addImm (opX w) (opKK w))
  | 0x8 => decode8 w
  | 0x9 => if opN w = 0 then some (.sneReg (opX w) (opY w)) else none
  | 0xA => some (.ldI (opNNN w))
  | 0xB => some (.jpV0 (opNNN w))
  | 0xC => some (.rnd (opX w) (opKK w))
  | 0xD => some (.drw (opX w) (opY w) (opN w))
  | 0xE => decodeE w
  -- hi = F is the one value left
  | _ => decodeF w

/-- Why a byte sequence is not an instruction. -/
inductive DecodeReject where
  /-- The word matches no row of R95 (R97); executing it reports UnknownOpcode (R126). -/
  | unknownOpcode (w : Word)
  /-- Fewer than the two bytes every instruction has (R90). -/
  | truncated
deriving DecidableEq, Repr

/-- Decoding of a byte sequence, lowest address first: the instruction and the bytes after it (R90, R123). -/
def decode : List Byte → Except DecodeReject (Instr × List Byte)
  | high :: low :: rest =>
    match decodeWord (wordOfBytes high low) with
    | some i => .ok (i, rest)
    | none => .error (.unknownOpcode (wordOfBytes high low))
  | [_] => .error .truncated
  | [] => .error .truncated

/-! ## Encoding (R92, R95) -/

/-- The word of an instruction, from the patterns of R95. -/
def encode : Instr → Word
  | .cls => 0x00E0#16
  | .ret => 0x00EE#16
  | .sys nnn => wordNNN 0x0 nnn
  | .jp nnn => wordNNN 0x1 nnn
  | .call nnn => wordNNN 0x2 nnn
  | .seImm x kk => wordXKK 0x3 x kk
  | .sneImm x kk => wordXKK 0x4 x kk
  | .seReg x y => wordXYN 0x5 x y 0x0
  | .ldImm x kk => wordXKK 0x6 x kk
  | .addImm x kk => wordXKK 0x7 x kk
  | .ldReg x y => wordXYN 0x8 x y 0x0
  | .orReg x y => wordXYN 0x8 x y 0x1
  | .andReg x y => wordXYN 0x8 x y 0x2
  | .xorReg x y => wordXYN 0x8 x y 0x3
  | .addReg x y => wordXYN 0x8 x y 0x4
  | .subReg x y => wordXYN 0x8 x y 0x5
  | .shr x y => wordXYN 0x8 x y 0x6
  | .subn x y => wordXYN 0x8 x y 0x7
  | .shl x y => wordXYN 0x8 x y 0xE
  | .sneReg x y => wordXYN 0x9 x y 0x0
  | .ldI nnn => wordNNN 0xA nnn
  | .jpV0 nnn => wordNNN 0xB nnn
  | .rnd x kk => wordXKK 0xC x kk
  | .drw x y n => wordXYN 0xD x y n
  | .skp x => wordXKK 0xE x 0x9E
  | .sknp x => wordXKK 0xE x 0xA1
  | .ldVxDT x => wordXKK 0xF x 0x07
  | .ldVxK x => wordXKK 0xF x 0x0A
  | .ldDTVx x => wordXKK 0xF x 0x15
  | .ldSTVx x => wordXKK 0xF x 0x18
  | .addI x => wordXKK 0xF x 0x1E
  | .ldF x => wordXKK 0xF x 0x29
  | .ldB x => wordXKK 0xF x 0x33
  | .storeRegs x => wordXKK 0xF x 0x55
  | .loadRegs x => wordXKK 0xF x 0x65

/-- The two bytes of an instruction as memory holds them, the high byte at the lower address (R64, R90). -/
def encodeBytes (i : Instr) : List Byte := [highByte (encode i), lowByte (encode i)]

/-! ## The opcode table's view of a word (R95) -/

/-- The `mask` column of R95: the bits the row fixes. -/
def Instr.mask : Instr → Word
  | .cls => 0xFFFF
  | .ret => 0xFFFF
  | .sys _ => 0xF000
  | .jp _ => 0xF000
  | .call _ => 0xF000
  | .seImm _ _ => 0xF000
  | .sneImm _ _ => 0xF000
  | .seReg _ _ => 0xF00F
  | .ldImm _ _ => 0xF000
  | .addImm _ _ => 0xF000
  | .ldReg _ _ => 0xF00F
  | .orReg _ _ => 0xF00F
  | .andReg _ _ => 0xF00F
  | .xorReg _ _ => 0xF00F
  | .addReg _ _ => 0xF00F
  | .subReg _ _ => 0xF00F
  | .shr _ _ => 0xF00F
  | .subn _ _ => 0xF00F
  | .shl _ _ => 0xF00F
  | .sneReg _ _ => 0xF00F
  | .ldI _ => 0xF000
  | .jpV0 _ => 0xF000
  | .rnd _ _ => 0xF000
  | .drw _ _ _ => 0xF000
  | .skp _ => 0xF0FF
  | .sknp _ => 0xF0FF
  | .ldVxDT _ => 0xF0FF
  | .ldVxK _ => 0xF0FF
  | .ldDTVx _ => 0xF0FF
  | .ldSTVx _ => 0xF0FF
  | .addI _ => 0xF0FF
  | .ldF _ => 0xF0FF
  | .ldB _ => 0xF0FF
  | .storeRegs _ => 0xF0FF
  | .loadRegs _ => 0xF0FF

/-- The `match` column of R95: the value of the fixed bits. -/
def Instr.fixedBits : Instr → Word
  | .cls => 0x00E0
  | .ret => 0x00EE
  | .sys _ => 0x0000
  | .jp _ => 0x1000
  | .call _ => 0x2000
  | .seImm _ _ => 0x3000
  | .sneImm _ _ => 0x4000
  | .seReg _ _ => 0x5000
  | .ldImm _ _ => 0x6000
  | .addImm _ _ => 0x7000
  | .ldReg _ _ => 0x8000
  | .orReg _ _ => 0x8001
  | .andReg _ _ => 0x8002
  | .xorReg _ _ => 0x8003
  | .addReg _ _ => 0x8004
  | .subReg _ _ => 0x8005
  | .shr _ _ => 0x8006
  | .subn _ _ => 0x8007
  | .shl _ _ => 0x800E
  | .sneReg _ _ => 0x9000
  | .ldI _ => 0xA000
  | .jpV0 _ => 0xB000
  | .rnd _ _ => 0xC000
  | .drw _ _ _ => 0xD000
  | .skp _ => 0xE09E
  | .sknp _ => 0xE0A1
  | .ldVxDT _ => 0xF007
  | .ldVxK _ => 0xF00A
  | .ldDTVx _ => 0xF015
  | .ldSTVx _ => 0xF018
  | .addI _ => 0xF01E
  | .ldF _ => 0xF029
  | .ldB _ => 0xF033
  | .storeRegs _ => 0xF055
  | .loadRegs _ => 0xF065

/-! ## The host's question -/

/-- The 16-bit word that the opcode table's numbering `w` of an `nbits`-bit instruction names: bits above `nbits` are 0. -/
def tableWord (nbits w : Nat) : Word := BitVec.ofNat 16 (w % 2 ^ nbits)

/-- What the decoder reads from the word the table numbers `w`, laid out in memory order (R64) and decoded. -/
def decodeTableWord (nbits w : Nat) : Option Instr :=
  match decode [highByte (tableWord nbits w), lowByte (tableWord nbits w)] with
  | .ok (i, _) => some i
  | .error _ => none

end Sys2Proof
end

