-- ==== Sys2Proof/Config.lean ====
section
/-! DEFINITION. The implementation parameters of spec/00_scope.md R7 (`FONT`, `SHIFT_SOURCE`, `MEM_OOB`, `KEY_OOB`) and the
one free value of the model, the random byte of RND (R128, R172). -/

namespace Sys2Proof

/-- `SHIFT_SOURCE` (R7, R166): which register SHR and SHL shift. -/
inductive ShiftSource where
  | vx
  | vy
deriving DecidableEq, Repr

/-- `MEM_OOB` (R7, R61 to R63): what an access to an address above 0xFFF is. -/
inductive MemOob where
  /-- The step has no meaning: model fault AddressOutOfRange. -/
  | fault
  /-- The address is reduced modulo 4096. -/
  | wrap
deriving DecidableEq, Repr

/-- `KEY_OOB` (R7, R206): what a key index above 15 in SKP or SKNP is. -/
inductive KeyOob where
  /-- The step has no meaning: model fault KeyIndexOutOfRange. -/
  | fault
  /-- The index is the low nibble of the value. -/
  | lowNibble
deriving DecidableEq, Repr

/-- The 80 glyph bytes of `FONT[0..79]` (R36). -/
abbrev Font := Vector Byte 80

/-- The configuration of one build of the block (R7, R37 c): fixed for its life, written by nothing.
It travels in `Machine.State.cfg`, so that a statement about every state is a statement about every
configuration (DESIGN CHOICE, notes/assumptions/1.md). -/
structure Config where
  font : Font
  shiftSource : ShiftSource
  memOob : MemOob
  keyOob : KeyOob
deriving DecidableEq, Repr

/-- The byte `RndByte()` that the n-th executed RND since power-on receives (R12, R128, R172): a free value, with no body,
so that nothing can be proved of it and a claim holds for all 256 values (decision D21, U6; notes/assumptions/6.md). -/
opaque Config.rndByte : Nat → Byte

end Sys2Proof
end

