-- ==== Sys2Proof/Machine/Defaults.lean ====
section
/-! DEFINITION. The default values of the implementation parameters (spec/00_scope.md R7, spec/10_state.md R36). -/

namespace Sys2Proof.Machine

/-- The default `FONT` (R36): 16 glyphs of 5 bytes, digit d at 5*d. PRESUMED: the bytes are the spec's G1, from general
knowledge of the CHIP-8 family, not from the source (decision D14; notes/assumptions/2.md). -/
def defaultFont : Font :=
  #v[0xF0, 0x90, 0x90, 0x90, 0xF0,
     0x20, 0x60, 0x20, 0x20, 0x70,
     0xF0, 0x10, 0xF0, 0x80, 0xF0,
     0xF0, 0x10, 0xF0, 0x10, 0xF0,
     0x90, 0x90, 0xF0, 0x10, 0x10,
     0xF0, 0x80, 0xF0, 0x10, 0xF0,
     0xF0, 0x80, 0xF0, 0x90, 0xF0,
     0xF0, 0x10, 0x20, 0x40, 0x40,
     0xF0, 0x90, 0xF0, 0x90, 0xF0,
     0xF0, 0x90, 0xF0, 0x10, 0xF0,
     0xF0, 0x90, 0xF0, 0x90, 0x90,
     0xE0, 0x90, 0xE0, 0x90, 0xE0,
     0xF0, 0x80, 0x80, 0x80, 0xF0,
     0xE0, 0x90, 0x90, 0x90, 0xE0,
     0xF0, 0x80, 0xF0, 0x80, 0xF0,
     0xF0, 0x80, 0xF0, 0x80, 0x80]

/-- The configuration with every parameter of R7 at its default: VX shifts, `fault` for both out-of-range cases. -/
def defaultConfig : Config :=
  { font := defaultFont, shiftSource := .vx, memOob := .fault, keyOob := .fault }

end Sys2Proof.Machine
end

