-- ==== Sys2Proof/Machine/State.lean ====
section
/-! DEFINITION. The state of the CHIP-8 CORE: everything spec/10_state.md lists ("There is nothing else"), and beside it the
three fields of the model's own that carry the block's configuration, its random input and its diagnostic output. -/

namespace Sys2Proof.Machine

/-- `MODE` (R32). -/
inductive Mode where
  | running
  | waitingForKey
  | halted
deriving DecidableEq, Repr

/-- A reported condition (R220), one constructor for each of the five, with the value its `raise` names (R12, R126, R141, R239,
R262). Only the kind of an event is specified (R229, D20, U11): the payload is a DESIGN CHOICE (notes/assumptions/7.md). -/
inductive Event where
  /-- The word fetched, and the PC it was fetched from, as R221 recommends. -/
  | unknownOpcode (w : Word) (pc : Word)
  | stackOverflow
  | stackUnderflow
  | invalidKeyIndex (index : Nat)
  | programTooLarge (length : Nat)
deriving DecidableEq, Repr

/-- The framebuffer (R29): one 64-bit row for each of the 32 rows, bit `col` of row `row` being `FB[row][col]`. How a row's
bits are numbered is invisible outside `pixel` (D36; notes/assumptions/22.md). -/
abbrev FrameBuffer := Vector (BitVec 64) 32

/-- Memory (R35): the bytes that differ from their reset contents, addresses rising (`Memory.wf` in Machine/Ops.lean). -/
abbrev Memory := List Host.Cell

/-- Why a step has no successor. Neither is a condition of the hardware (R220): both mark steps to which the spec gives no
meaning, and neither is reported on the diagnostic channel. -/
inductive Fault where
  /-- AddressOutOfRange (R61 to R63, U1, U2): raised by the fetch, DRW, LD B,Vx, LD [I],Vx and LD Vx,[I] for an address above
  0xFFF under `MEM_OOB = fault`. Safe: nothing of the step is kept. -/
  | addressOutOfRange
  /-- KeyIndexOutOfRange (R206, U3): raised by SKP and SKNP for a key index above 15 under `KEY_OOB = fault`. Safe. -/
  | keyIndexOutOfRange
deriving DecidableEq, Repr

/-- Why an instruction has no meaning in the model. -/
inductive Refusal where
  /-- Raised by `exec`'s arm of an instruction with no meaning yet; no arm is one. Safe. -/
  | notModelled (mnemonic : String)
deriving DecidableEq, Repr

/-- The state of the machine. -/
structure State where
  /-- `V[0..15]`, 8 bits each; `V[15]` is the flag VF (R20, R22). -/
  v : Vector Byte 16
  /-- `I`, the index register (R25). -/
  i : Word
  /-- `PC` (R24). -/
  pc : Word
  /-- `STACK[0..15]`, return addresses (R26). -/
  stack : Vector Word 16
  /-- `SP`, 0 to 16: the number of live entries (R27). -/
  sp : Fin 17
  /-- `DT`, the delay timer (R28). -/
  dt : Byte
  /-- `ST`, the sound timer (R28). -/
  st : Byte
  /-- `FB[0..31][0..63]` (R29). -/
  fb : FrameBuffer
  /-- `DIRTY` (R30). -/
  dirty : Bool
  /-- `KEY[0..15]` (R31). -/
  key : Vector Bool 16
  /-- `MODE` (R32). -/
  mode : Mode
  /-- `WAITREG` (R33). -/
  waitReg : Reg
  /-- `MEM[0..4095]` (R35). -/
  mem : Memory
  /-- The model's own: the build's configuration (R37 c), written by nothing (notes/assumptions/1.md). -/
  cfg : Config
  /-- The model's own: how many random bytes RND has drawn; the next is `Config.rndByte rndDraws` (notes/assumptions/6.md). -/
  rndDraws : Nat
  /-- The model's own: the events the diagnostic channel has put out, newest first (R229; notes/assumptions/7.md). -/
  events : List Event
deriving DecidableEq, Repr

/-- The state after `reset` under a given configuration (R38). The source fixes PC, MODE and the glyph region; the other
values are the spec's decisions D15, D16 and D37 (DESIGN CHOICE, notes/assumptions/10.md and 11.md). Memory lists
nothing: every byte reads as its reset contents, which `unlistedByte` gives. -/
def State.resetWith (cfg : Config) : State where
  v := Vector.replicate 16 0
  i := 0
  pc := 0x200
  stack := Vector.replicate 16 0
  sp := 0
  dt := 0
  st := 0
  fb := Vector.replicate 32 0
  dirty := true
  key := Vector.replicate 16 false
  mode := .running
  waitReg := 0
  mem := []
  cfg := cfg
  rndDraws := 0
  events := []

/-- The machine right after reset, every parameter at its default (R7, R38). -/
def State.reset : State := State.resetWith defaultConfig

end Sys2Proof.Machine
end

