-- ==== Sys2Proof/Machine/Ops.lean ====
section
/-! DEFINITION. The named operations over registers, memory, the program counter and the call stack, the one way a
condition is reported (`raise`), and the fetch. Every meaning is written over these. -/

namespace Sys2Proof.Machine

/-- What a meaning and a step answer. -/
abbrev Out := Host.Outcome State Fault Refusal

/-- The outcome of an operation that ends in a state or a model fault: under a fault nothing of the step is kept (R62). -/
def finish : Except Fault State → Out
  | .ok t => .next t
  | .error f => .fault f

/-! ## General registers (R20) -/

/-- `V[r]`. -/
def State.getV (s : State) (r : Reg) : Byte := s.v[r.toNat]'r.isLt

/-- `V[r] <- b`. -/
def State.setV (s : State) (r : Reg) (b : Byte) : State := { s with v := s.v.set r.toNat b r.isLt }

/-- The number of the flag register VF (R22). -/
def flagReg : Reg := 15

/-- `V[k], V[k+1], ... <- bytes`, in ascending register order (R64, R185). -/
def State.setVs (s : State) (k : Nat) : List Byte → State
  | [] => s
  | b :: bs => (s.setV (BitVec.ofNat 4 k) b).setVs (k + 1) bs

/-- `V[0], ..., V[x]`: the x + 1 registers that LD [I],Vx stores (R184). -/
def State.firstVs (s : State) (x : Reg) : List Byte :=
  (List.range (x.toNat + 1)).map fun k => s.getV (BitVec.ofNat 4 k)

/-! ## Program counter (R24, R125): 16 bits, additions modulo 65536 (D32) -/

/-- `PC <- PC + 2`, the default advance. -/
def State.advance (s : State) : State := { s with pc := s.pc + 2 }

/-- `PC <- PC + 4` if the condition holds, else `PC <- PC + 2` (R125): the shared end of the six skips. -/
def State.skipIf (s : State) (c : Bool) : State := { s with pc := if c then s.pc + 4 else s.pc + 2 }

/-- `PC <- target`. -/
def State.jumpTo (s : State) (target : Word) : State := { s with pc := target }

/-! ## Memory as data (R35, R60) -/

/-- The number of bytes of memory (R60). -/
def memSize : Nat := 4096

/-- What an address that memory does not list reads as: its reset contents (R38), the glyph byte below 0x050 and 0x00
elsewhere (the zero is the spec's decision D15; notes/assumptions/10.md). -/
def unlistedByte (font : Font) (a : Nat) : Byte := if h : a < 80 then font[a] else 0

/-- The byte at an address. -/
def memLookup (font : Font) : Memory → Nat → Byte
  | [], a => unlistedByte font a
  | (k, b) :: rest, a => if k = a then b else memLookup font rest a

/-- The list with no entry for the address. -/
def memErase (m : Memory) (a : Nat) : Memory := m.filter fun c => c.1 != a

/-- The list with the one entry `(a, b)` for the address, in its place. -/
def memInsert : Memory → Nat → Byte → Memory
  | [], a, b => [(a, b)]
  | (k, c) :: rest, a, b =>
    if a < k then (a, b) :: (k, c) :: rest
    else if a = k then (a, b) :: rest
    else (k, c) :: memInsert rest a b

/-- The memory after a byte is written: writing what an unlisted address reads as removes the entry. -/
def memStore (font : Font) (m : Memory) (a : Nat) (b : Byte) : Memory :=
  if b = unlistedByte font a then memErase m a else memInsert m a b

/-- The canonical form: addresses strictly rising and inside memory, no entry equal to what an unlisted address reads as. -/
abbrev Memory.wf (font : Font) (m : Memory) : Prop :=
  m.Pairwise (fun c d => c.1 < d.1) ∧ ∀ c ∈ m, c.1 < memSize ∧ c.2 ≠ unlistedByte font c.1

/-- `MEM[a]`, for an address inside memory. -/
def State.byteAt (s : State) (a : Nat) : Byte := memLookup s.cfg.font s.mem a

/-- `MEM[a] <- b`, for an address inside memory. -/
def State.setByte (s : State) (a : Nat) (b : Byte) : State := { s with mem := memStore s.cfg.font s.mem a b }

/-! ## The access primitives (R61 to R63) -/

/-- The index into `MEM` that an access to the address `a` uses: `a` itself up to 0xFFF; above it, as `MEM_OOB` says, a model
fault or `a mod 4096` (R61, R62, D4). The address is computed without truncation (R61, R186). -/
def State.resolve (s : State) (a : Nat) : Except Fault Nat :=
  if a ≤ 0xFFF then .ok a
  else match s.cfg.memOob with
    | .fault => .error .addressOutOfRange
    | .wrap => .ok (a % memSize)

/-- `MemRead(a, 1)` (R61). -/
def State.memRead (s : State) (a : Nat) : Except Fault Byte :=
  match s.resolve a with
  | .ok p => .ok (s.byteAt p)
  | .error f => .error f

/-- `MemWrite(a, 1, b)` (R62). -/
def State.memWrite (s : State) (a : Nat) (b : Byte) : Except Fault State :=
  match s.resolve a with
  | .ok p => .ok (s.setByte p b)
  | .error f => .error f

/-- The `n` bytes from the address `a` upward, each by its own `MemRead` (R66). -/
def State.memReads (s : State) (a : Nat) : Nat → Except Fault (List Byte)
  | 0 => .ok []
  | n + 1 =>
    match s.memRead a with
    | .error f => .error f
    | .ok b =>
      match s.memReads (a + 1) n with
      | .error f => .error f
      | .ok bs => .ok (b :: bs)

/-- The bytes stored from the address `a` upward, each by its own `MemWrite`; a fault at any of them keeps none (R62, U2). -/
def State.memWrites (s : State) (a : Nat) : List Byte → Except Fault State
  | [] => .ok s
  | b :: bs =>
    match s.memWrite a b with
    | .error f => .error f
    | .ok t => t.memWrites (a + 1) bs

/-- Fetch: `MemRead(PC, 2)`, the byte at PC being the more significant (R63, R122). Each byte address is resolved
separately (D5). It changes nothing. -/
def State.fetch (s : State) : Except Fault Word :=
  match s.memRead s.pc.toNat with
  | .error f => .error f
  | .ok high =>
    match s.memRead (s.pc.toNat + 1) with
    | .error f => .error f
    | .ok low => .ok (wordOfBytes high low)

/-! ## Conditions (R220): the machine's whole exception mechanism -/

/-- The code of a condition (R220; the numbers are the spec's own, D20). -/
def Event.code : Event → Nat
  | .unknownOpcode _ _ => 1
  | .stackOverflow => 2
  | .stackUnderflow => 3
  | .invalidKeyIndex _ => 4
  | .programTooLarge _ => 5

/-- The fatal conditions (R220, R222, R223). -/
def Event.fatal : Event → Bool
  | .stackOverflow => true
  | .stackUnderflow => true
  | .unknownOpcode _ _ => false
  | .invalidKeyIndex _ => false
  | .programTooLarge _ => false

/-- `raise` (R12, R227): the condition is put out on the diagnostic channel; a fatal one also sets `MODE <- HALTED`. PC is not
written: there is no vector and nothing is saved (R227). There is no return from it but `reset` (R228). -/
def State.raise (s : State) (e : Event) : State :=
  { s with events := e :: s.events, mode := if e.fatal then .halted else s.mode }

/-- What an unknown opcode, SYS among them, does: report and advance (R126, R141, R221). -/
def State.reportUnknown (s : State) (w : Word) : State := (s.raise (.unknownOpcode w s.pc)).advance

/-! ## Call stack (R26, R27) -/

/-- CALL's push: `STACK[SP] <- ret; SP <- SP + 1`, `none` when the stack is full (R143). -/
def State.push (s : State) (ret : Word) : Option State :=
  if h : s.sp.val < 16 then
    some { s with stack := s.stack.set s.sp.val ret h, sp := ⟨s.sp.val + 1, by omega⟩ }
  else none

/-- RET's pop: `SP <- SP - 1` and the entry at the new `SP`, `none` when the stack is empty (R140). The popped entry stays in
`STACK`, dead (R26, D37). -/
def State.pop (s : State) : Option (Word × State) :=
  if h : 0 < s.sp.val then
    some (s.stack[s.sp.val - 1]'(by omega), { s with sp := ⟨s.sp.val - 1, by omega⟩ })
  else none

/-! ## The word the step fetches next (the host's question) -/

/-- The state made ready to fetch at PC: RUNNING, and PC moved to the program base 0x200 where it cannot be fetched from. -/
def State.fetchReady (s : State) : State :=
  match s.fetch with
  | .ok _ => { s with mode := .running }
  | .error _ => { s with mode := .running, pc := 0x200 }

/-- The word stored at PC, high byte first, where the next step fetches (R63, R64). -/
def State.placeWord (s : State) (w : Word) : State :=
  match s.fetchReady.memWrites s.fetchReady.pc.toNat [highByte w, lowByte w] with
  | .ok t => t
  | .error _ => s.fetchReady

end Sys2Proof.Machine
end

