-- ==== Sys2Proof/Machine/Flags.lean ====
section
/-! DEFINITION. The values that the flag-writing instructions put into VF (R23, R158): always 0x00 or 0x01, the whole byte. -/

namespace Sys2Proof.Machine

/-- A flag as the byte VF receives (R23). -/
def flagByte (c : Bool) : Byte := if c then 1 else 0

/-- Carry: the sum exceeds 255 (R158, R167). -/
def carryOf (a b : Byte) : Byte := flagByte (decide (255 < a.toNat + b.toNat))

/-- Not borrow of `a - b`: `a >= b`, equality included (R158, R168, R170). -/
def notBorrowOf (a b : Byte) : Byte := flagByte (decide (b.toNat ≤ a.toNat))

/-- The bit a right shift drops, bit 0 (R169). -/
def droppedRight (src : Byte) : Byte := flagByte (src.getLsbD 0)

/-- The bit a left shift drops, bit 7 (R171). -/
def droppedLeft (src : Byte) : Byte := flagByte (src.getLsbD 7)

/-- The write order of the flag-writing instructions (R159): the result to `V[x]`, then the flag to VF, so that with x = 15
the flag is what remains (the spec's decision D7; notes/assumptions/16.md). -/
def State.setResultAndFlag (s : State) (x : Reg) (result flag : Byte) : State := (s.setV x result).setV flagReg flag

end Sys2Proof.Machine
end

