-- ==== Sys2Proof/Machine/Operands.lean ====
section
/-! DEFINITION. The operand forms of the instructions: immediates (R93), the address `I + k` (R186), the shift source (R166)
and the key index (R206). -/

namespace Sys2Proof.Machine

/-- `zext_16(nnn)`: bits 15 to 12 are 0 (R93). -/
def addrOf (nnn : Imm12) : Word := nnn.setWidth 16

/-- `zext_16` of a byte (R93, R181). -/
def widen (b : Byte) : Word := b.setWidth 16

/-- The address `I + k`, formed without truncation (R61, R186). -/
def State.indexed (s : State) (k : Nat) : Nat := s.i.toNat + k

/-- The value SHR and SHL shift: `V[x]` or `V[y]` as `SHIFT_SOURCE` says (R166). -/
def State.shiftOperand (s : State) (x y : Reg) : Byte :=
  match s.cfg.shiftSource with
  | .vx => s.getV x
  | .vy => s.getV y

/-- `KeyIndex(v)`: `v` up to 15; above it, as `KEY_OOB` says, a model fault or the low nibble (R206, D6). -/
def State.keyIndex (s : State) (v : Byte) : Except Fault (Fin 16) :=
  if h : v.toNat ≤ 15 then .ok ⟨v.toNat, by omega⟩
  else match s.cfg.keyOob with
    | .fault => .error .keyIndexOutOfRange
    | .lowNibble => .ok ⟨v.toNat % 16, Nat.mod_lt _ (by decide)⟩

/-- Whether the key that `V[x]` names is pressed: the operand of SKP and SKNP (R200, R201, R206). -/
def State.keyOf (s : State) (x : Reg) : Except Fault Bool :=
  match s.keyIndex (s.getV x) with
  | .ok k => .ok s.key[k]
  | .error f => .error f

/-- The address of the glyph of a value's low nibble: `5 * v[3:0]`, glyph base 0x000 (R182). -/
def glyphAddr (v : Byte) : Word := BitVec.ofNat 16 (5 * (v.toNat % 16))

/-- The three decimal digits of a byte, hundreds first, each a whole byte (R183). -/
def decimalDigits (v : Byte) : List Byte :=
  [BitVec.ofNat 8 (v.toNat / 100), BitVec.ofNat 8 (v.toNat / 10 % 10), BitVec.ofNat 8 (v.toNat % 10)]

end Sys2Proof.Machine
end

