-- ==== Sys2Proof/Machine/Alu.lean ====
section
/-! DEFINITION. The meanings of the register load, arithmetic, logic and random instructions (spec/42_load_alu.md). All
arithmetic is unsigned, modulo 256 (R158). -/

namespace Sys2Proof.Machine

/-- `V[x] <- b; PC <- PC + 2`: the form of every instruction here that writes no flag. -/
def State.load (s : State) (x : Reg) (b : Byte) : State := (s.setV x b).advance

/-- `V[x] <- result; V[15] <- flag; PC <- PC + 2`: the form of the five that do (R159). -/
def State.loadWithFlag (s : State) (x : Reg) (result flag : Byte) : State := (s.setResultAndFlag x result flag).advance

/-- LD Vx,kk (R160). -/
def execLdImm (x : Reg) (kk : Byte) (s : State) : Out := .next (s.load x kk)

/-- ADD Vx,kk (R161): no flag. -/
def execAddImm (x : Reg) (kk : Byte) (s : State) : Out := .next (s.load x (s.getV x + kk))

/-- LD Vx,Vy (R162). -/
def execLdReg (x y : Reg) (s : State) : Out := .next (s.load x (s.getV y))

/-- OR Vx,Vy (R163): VF unchanged (D8). -/
def execOrReg (x y : Reg) (s : State) : Out := .next (s.load x (s.getV x ||| s.getV y))

/-- AND Vx,Vy (R164): VF unchanged (D8). -/
def execAndReg (x y : Reg) (s : State) : Out := .next (s.load x (s.getV x &&& s.getV y))

/-- XOR Vx,Vy (R165): VF unchanged (D8). -/
def execXorReg (x y : Reg) (s : State) : Out := .next (s.load x (s.getV x ^^^ s.getV y))

/-- ADD Vx,Vy (R167): VF = carry. -/
def execAddReg (x y : Reg) (s : State) : Out :=
  .next (s.loadWithFlag x (s.getV x + s.getV y) (carryOf (s.getV x) (s.getV y)))

/-- SUB Vx,Vy (R168): VF = not borrow. -/
def execSubReg (x y : Reg) (s : State) : Out :=
  .next (s.loadWithFlag x (s.getV x - s.getV y) (notBorrowOf (s.getV x) (s.getV y)))

/-- SHR Vx (R169): VF = the bit shifted out. -/
def execShr (x y : Reg) (s : State) : Out :=
  .next (s.loadWithFlag x (s.shiftOperand x y >>> 1) (droppedRight (s.shiftOperand x y)))

/-- SUBN Vx,Vy (R170): `V[y] - V[x]`, VF = not borrow of that difference. -/
def execSubn (x y : Reg) (s : State) : Out :=
  .next (s.loadWithFlag x (s.getV y - s.getV x) (notBorrowOf (s.getV y) (s.getV x)))

/-- SHL Vx (R171): VF = the bit shifted out. -/
def execShl (x y : Reg) (s : State) : Out :=
  .next (s.loadWithFlag x (s.shiftOperand x y <<< 1) (droppedLeft (s.shiftOperand x y)))

/-- RND's operation on the byte `rnd` that the step receives (R172). -/
def State.loadRandom (s : State) (rnd : Byte) (x : Reg) (kk : Byte) : State := s.load x (rnd &&& kk)

/-- RND Vx,kk (R172): the byte is the next free value, and the draw is counted (notes/assumptions/6.md). -/
def execRnd (x : Reg) (kk : Byte) (s : State) : Out :=
  .next ({ s with rndDraws := s.rndDraws + 1 }.loadRandom (Config.rndByte s.rndDraws) x kk)

end Sys2Proof.Machine
end

