-- ==== Sys2Proof/Machine/Control.lean ====
section
/-! DEFINITION. The meanings of the control-transfer instructions (spec/41_control_flow.md). Each assumes what R120 says: MODE is
RUNNING and PC is the address of the instruction. -/

namespace Sys2Proof.Machine

/-- RET (R140): on an empty stack StackUnderflow, fatal, and nothing else changes (R223). -/
def execRet (s : State) : Out :=
  match s.pop with
  | some (target, t) => .next (t.jumpTo target)
  | none => .next (s.raise .stackUnderflow)

/-- SYS nnn (R141): reports UnknownOpcode with its own word and advances; nnn is ignored. -/
def execSys (nnn : Imm12) (s : State) : Out := .next (s.reportUnknown (encode (.sys nnn)))

/-- JP nnn (R142). -/
def execJp (nnn : Imm12) (s : State) : Out := .next (s.jumpTo (addrOf nnn))

/-- CALL nnn (R143): pushes PC + 2, the return address (D2); on a full stack StackOverflow, fatal, and no jump (R222). -/
def execCall (nnn : Imm12) (s : State) : Out :=
  match s.push (s.pc + 2) with
  | some t => .next (t.jumpTo (addrOf nnn))
  | none => .next (s.raise .stackOverflow)

/-- SE Vx,kk (R144). -/
def execSeImm (x : Reg) (kk : Byte) (s : State) : Out := .next (s.skipIf (s.getV x == kk))

/-- SNE Vx,kk (R145). -/
def execSneImm (x : Reg) (kk : Byte) (s : State) : Out := .next (s.skipIf (s.getV x != kk))

/-- SE Vx,Vy (R146). -/
def execSeReg (x y : Reg) (s : State) : Out := .next (s.skipIf (s.getV x == s.getV y))

/-- SNE Vx,Vy (R147). -/
def execSneReg (x y : Reg) (s : State) : Out := .next (s.skipIf (s.getV x != s.getV y))

/-- JP V0,nnn (R148): the offset is always `V[0]`, and the sum is not reduced to 12 bits (D32). -/
def execJpV0 (nnn : Imm12) (s : State) : Out := .next (s.jumpTo (widen (s.getV 0) + addrOf nnn))

end Sys2Proof.Machine
end

