-- ==== Sys2Proof/Machine/Display.lean ====
section
/-! DEFINITION. The framebuffer's operations and the meanings of CLS and DRW (spec/44_display.md). -/

namespace Sys2Proof.Machine

/-- `FB[row][col]` (R29). -/
def fbPixel (fb : FrameBuffer) (row : Fin 32) (col : Fin 64) : Bool := fb[row].getLsbD col.val

/-- `FB[row][col] <- FB[row][col] XOR 1` (R191). -/
def fbToggle (fb : FrameBuffer) (row : Fin 32) (col : Fin 64) : FrameBuffer :=
  fb.set row.val (fb[row] ^^^ BitVec.twoPow 64 col.val) row.isLt

/-- A column number reduced modulo 64 (R191). -/
def wrapCol (a : Nat) : Fin 64 := ⟨a % 64, Nat.mod_lt _ (by decide)⟩

/-- A row number reduced modulo 32 (R191). -/
def wrapRow (a : Nat) : Fin 32 := ⟨a % 32, Nat.mod_lt _ (by decide)⟩

/-- Every pixel off (R190). -/
def fbBlank : FrameBuffer := Vector.replicate 32 0

/-- The variables of R191's loops: the framebuffer as drawn so far and `coll`. -/
structure Drawing where
  fb : FrameBuffer
  coll : Bool
deriving DecidableEq, Repr

/-- A sprite bit that is 1 lands on a pixel: collision if it was on, then the pixel is toggled (R191). -/
def Drawing.plot (d : Drawing) (row : Fin 32) (col : Fin 64) : Drawing :=
  { fb := fbToggle d.fb row col, coll := d.coll || fbPixel d.fb row col }

/-- One sprite row: bit `7 - c` of the byte is the pixel at column offset `c` (R192, decision D13), and each pixel wraps on its
own (R191). -/
def drawRow (x0 : Nat) (row : Fin 32) (b : Byte) (d : Drawing) : Drawing :=
  (List.range 8).foldl (fun d c => if b.getLsbD (7 - c) then d.plot row (wrapCol (x0 + c)) else d) d

/-- The sprite's rows from row offset `r` on (R191). -/
def drawRows (x0 y0 : Nat) (r : Nat) : List Byte → Drawing → Drawing
  | [], d => d
  | b :: bs, d => drawRows x0 y0 (r + 1) bs (drawRow x0 (wrapRow (y0 + r)) b d)

/-- A whole sprite on a framebuffer, its corner at column `vx mod 64`, row `vy mod 32` (R191). -/
def drawSprite (fb : FrameBuffer) (vx vy : Byte) (sprite : List Byte) : Drawing :=
  drawRows (vx.toNat % 64) (vy.toNat % 32) 0 sprite { fb := fb, coll := false }

/-- The framebuffer written and marked dirty: `DIRTY <- 1` whether or not a pixel changed (R30, conflict C3). -/
def State.show (s : State) (fb : FrameBuffer) : State := { s with fb := fb, dirty := true }

/-- CLS (R190). -/
def execCls (s : State) : Out := .next (s.show fbBlank).advance

/-- DRW Vx,Vy,n (R191): the coordinates are read before VF is written (R193 g, D7), and n = 0 reads no memory (R193 e). -/
def execDrw (x y : Reg) (n : Nibble) (s : State) : Out :=
  match s.memReads (s.indexed 0) n.toNat with
  | .ok sprite =>
    let d := drawSprite s.fb (s.getV x) (s.getV y) sprite
    .next ((s.show d.fb).setV flagReg (flagByte d.coll)).advance
  | .error f => .fault f

end Sys2Proof.Machine
end

