-- ==== Sys2Proof/Machine/IndexMemory.lean ====
section
/-! DEFINITION. The meanings of the index-register and memory instructions (spec/43_index_memory.md). None of the memory
instructions changes I (D9). -/

namespace Sys2Proof.Machine

/-- `I <- a`. -/
def State.setI (s : State) (a : Word) : State := { s with i := a }

/-- LD I,nnn (R180). -/
def execLdI (nnn : Imm12) (s : State) : Out := .next (s.setI (addrOf nnn)).advance

/-- ADD I,Vx (R181): modulo 65536, no flag (D10). -/
def execAddI (x : Reg) (s : State) : Out := .next (s.setI (s.i + widen (s.getV x))).advance

/-- LD F,Vx (R182): an address only, no memory is read. -/
def execLdF (x : Reg) (s : State) : Out := .next (s.setI (glyphAddr (s.getV x))).advance

/-- Bytes stored from `I` upward, then `PC <- PC + 2`: the shared form of LD B,Vx and LD [I],Vx. -/
def State.storeAtI (s : State) (bytes : List Byte) : Except Fault State :=
  match s.memWrites (s.indexed 0) bytes with
  | .ok t => .ok t.advance
  | .error f => .error f

/-- LD B,Vx (R183): the three decimal digits of `V[x]`. -/
def execLdB (x : Reg) (s : State) : Out := finish (s.storeAtI (decimalDigits (s.getV x)))

/-- LD [I],Vx (R184): `V[0]` to `V[x]`, x included. -/
def execStoreRegs (x : Reg) (s : State) : Out := finish (s.storeAtI (s.firstVs x))

/-- LD Vx,[I] (R185): into `V[0]` to `V[x]`, x included. -/
def execLoadRegs (x : Reg) (s : State) : Out :=
  match s.memReads (s.indexed 0) (x.toNat + 1) with
  | .ok bytes => .next (s.setVs 0 bytes).advance
  | .error f => .fault f

end Sys2Proof.Machine
end

