-- ==== Sys2Proof/Machine/KeypadTimers.lean ====
section
/-! DEFINITION. The meanings of the keypad and timer instructions (spec/45_keypad_timers.md). -/

namespace Sys2Proof.Machine

/-- SKP Vx (R200). -/
def execSkp (x : Reg) (s : State) : Out :=
  match s.keyOf x with
  | .ok pressed => .next (s.skipIf pressed)
  | .error f => .fault f

/-- SKNP Vx (R201). -/
def execSknp (x : Reg) (s : State) : Out :=
  match s.keyOf x with
  | .ok pressed => .next (s.skipIf (!pressed))
  | .error f => .fault f

/-- LD Vx,DT (R202). -/
def execLdVxDT (x : Reg) (s : State) : Out := .next (s.setV x s.dt).advance

/-- LD Vx,K (R203): the wait is entered; PC is not written, and `KEY` is not read (D35). -/
def execLdVxK (x : Reg) (s : State) : Out := .next { s with waitReg := x, mode := .waitingForKey }

/-- LD DT,Vx (R204). -/
def execLdDTVx (x : Reg) (s : State) : Out := .next { s with dt := s.getV x }.advance

/-- LD ST,Vx (R205). -/
def execLdSTVx (x : Reg) (s : State) : Out := .next { s with st := s.getV x }.advance

end Sys2Proof.Machine
end

