-- ==== Sys2Proof/Machine/Cycle.lean ====
section
/-! DEFINITION. The step cycle (spec/40_step_cycle.md): gate, fetch, decode, execute. It stands beside Step.lean, which calls it. -/

namespace Sys2Proof.Machine

/-- Decode and execute one fetched word; an unknown word is reported and skipped (R123, R124, R126). -/
def executeWord (w : Word) (s : State) : Out :=
  match decodeWord w with
  | some i => exec i s
  | none => .next (s.reportUnknown w)

/-- The `step` transaction (R120): no change at all in HALTED and WAITING_FOR_KEY; in RUNNING one word is fetched and executed. -/
def cycle (s : State) : Out :=
  match s.mode with
  | .halted => .next s
  | .waitingForKey => .next s
  | .running =>
    match s.fetch with
    | .ok w => executeWord w s
    | .error f => .fault f

/-- The step result (R121; the names are the spec's own, D25). -/
inductive StepResult where
  | executed
  | noWorkHalted
  | noWorkWaiting
deriving DecidableEq, Repr

/-- What a step issued in this state returns: it depends on the mode the step finds (R120, R121). -/
def State.stepResult (s : State) : StepResult :=
  match s.mode with
  | .halted => .noWorkHalted
  | .waitingForKey => .noWorkWaiting
  | .running => .executed

end Sys2Proof.Machine
end

