-- ==== Sys2Proof/Machine/Step.lean ====
section
/-! DEFINITION. The step of the machine, and the host's way to place the instruction the next step runs. -/

namespace Sys2Proof.Machine

/-- One `step` transaction (R120). -/
def step (s : State) : Host.Outcome State Fault Refusal := cycle s

/-- The state whose very next step fetches and runs the instruction the opcode table numbers `w`: its two bytes stand at PC,
MODE is RUNNING, and PC is at a place that can be fetched from (notes/assumptions/13.md). -/
def State.withFetchWord (s : State) (nbits w : Nat) : State := s.placeWord (tableWord nbits w)

end Sys2Proof.Machine
end

