-- ==== Sys2Proof/Machine/Transactions.lean ====
section
/-! DEFINITION. The block's interface (spec/00_scope.md R6): the transactions other than `step` that the environment issues
(spec/60_exceptions.md, spec/70_reset_and_hazards.md), the read accessors, and all of them as one type. Each is atomic
(R6, R67), and each acts in every MODE (R234, D22). -/

namespace Sys2Proof.Machine

/-- `reset` (R260): every element of the block's state to its value of R38, from every mode. The configuration, the random
source and the events already put out are not touched (R261). -/
def State.resetTransaction (s : State) : State :=
  { State.resetWith s.cfg with rndDraws := s.rndDraws, events := s.events }

/-- Byte k of the image to `a + k` (R262). -/
def State.copyBytes (s : State) (a : Nat) : List Byte → State
  | [] => s
  | b :: bs => (s.setByte a b).copyBytes (a + 1) bs

/-- The largest image: 3584 bytes fill 0x200 to 0xFFF (R7, R262). -/
def programMax : Nat := 3584

/-- `load_program(bytes)` (R262): the first 3584 bytes are copied to 0x200 upward, and a longer image is reported (R225). -/
def State.loadProgram (s : State) (bytes : List Byte) : State :=
  let t := s.copyBytes 0x200 (bytes.take programMax)
  if programMax < bytes.length then t.raise (.programTooLarge bytes.length) else t

/-- The count `load_program` returns: `min(L, 3584)` (R262). -/
def loadCount (bytes : List Byte) : Nat := min bytes.length programMax

/-- A countdown timer's tick: down by 1, stopping at 0 (R235, R236). -/
def countDown (t : Byte) : Byte := if t = 0 then 0 else t - 1

/-- `tick_timers` (R236). -/
def State.tickTimers (s : State) : State := { s with dt := countDown s.dt, st := countDown s.st }

/-- The end of a key wait: `V[WAITREG] <- index; PC <- PC + 2; MODE <- RUNNING` (R239). -/
def State.resume (s : State) (index : Nat) : State :=
  { (s.setV s.waitReg (BitVec.ofNat 8 index)).advance with mode := .running }

/-- `set_key(index, pressed)` (R239): an index above 15 is reported and ignored (R224); else the latch is written, and a press
ends a wait, whatever the latch held before (R240, D34). -/
def State.setKey (s : State) (index : Nat) (pressed : Bool) : State :=
  if h : index ≤ 15 then
    let t := { s with key := s.key.set index pressed (by omega) }
    if s.mode = .waitingForKey ∧ pressed = true then t.resume index else t
  else s.raise (.invalidKeyIndex index)

/-- `clear_dirty` (R242). -/
def State.clearDirty (s : State) : State := { s with dirty := false }

/-! ## Read accessors (R241, R243): no state change -/

/-- `pixel(col, row)` (R241). -/
def State.pixel (s : State) (col : Fin 64) (row : Fin 32) : Bool := fbPixel s.fb row col

/-- `sound_active`: `ST > 0` (R28, R243). -/
def State.soundActive (s : State) : Bool := s.st != 0

/-! ## The interface as one type -/

/-- Everything the environment may do to the block (R6). The random byte of a `step` is the model's free value
(notes/assumptions/6.md), so `step` carries none. -/
inductive Transaction where
  | reset
  | loadProgram (bytes : List Byte)
  | step
  | tickTimers
  | setKey (index : Nat) (pressed : Bool)
  | clearDirty
  | readPixel (col : Fin 64) (row : Fin 32)
  | readDirty
  | readSoundActive
  | readMode
deriving DecidableEq, Repr

/-- The state after a transaction. -/
def transact (a : Transaction) (s : State) : Out :=
  match a with
  | .reset => .next s.resetTransaction
  | .loadProgram bytes => .next (s.loadProgram bytes)
  | .step => Sys2Proof.Machine.step s
  | .tickTimers => .next s.tickTimers
  | .setKey index pressed => .next (s.setKey index pressed)
  | .clearDirty => .next s.clearDirty
  | .readPixel _ _ => .next s
  | .readDirty => .next s
  | .readSoundActive => .next s
  | .readMode => .next s

/-- What a transaction returns to its agent beside a diagnostic event (R6). -/
inductive Response where
  | nothing
  | count (n : Nat)
  | stepped (r : StepResult)
  | bit (b : Bool)
  | modeIs (m : Mode)
deriving DecidableEq, Repr

/-- The response to a transaction issued in a state (R6, R121, R241, R243, R262). -/
def response (a : Transaction) (s : State) : Response :=
  match a with
  | .reset => .nothing
  | .loadProgram bytes => .count (loadCount bytes)
  | .step => .stepped s.stepResult
  | .tickTimers => .nothing
  | .setKey _ _ => .nothing
  | .clearDirty => .nothing
  | .readPixel col row => .bit (s.pixel col row)
  | .readDirty => .bit s.dirty
  | .readSoundActive => .bit s.soundActive
  | .readMode => .modeIs s.mode

end Sys2Proof.Machine
end

