-- ==== Sys2Proof/Safety.lean ====
section
/-! DEFINITION. The vocabulary of the statements: what a transaction leaves unchanged, the invariants of the machine, the
reachable states, and a run with no model fault. -/

namespace Sys2Proof.Machine

/-! ## Frames -/

/-- The parts of the state that a transaction may change, PC apart (a statement gives PC itself): the registers named, and the
parts set to true. -/
structure Changes where
  regs : List Reg := []
  i : Bool := false
  stack : Bool := false
  sp : Bool := false
  dt : Bool := false
  st : Bool := false
  fb : Bool := false
  dirty : Bool := false
  key : Bool := false
  mode : Bool := false
  waitReg : Bool := false
  mem : Bool := false
  rndDraws : Bool := false
  events : Bool := false
deriving DecidableEq, Repr

/-- Every part of the state but PC and the changes named is in `t` as it was in `s`. Memory is compared through the read of one
byte, the display through the read of one pixel. The configuration never changes (R37). -/
structure Unchanged (c : Changes) (s t : State) : Prop where
  regs : ∀ r : Reg, r ∉ c.regs → t.getV r = s.getV r
  i : c.i = false → t.i = s.i
  stack : c.stack = false → t.stack = s.stack
  sp : c.sp = false → t.sp = s.sp
  dt : c.dt = false → t.dt = s.dt
  st : c.st = false → t.st = s.st
  fb : c.fb = false → ∀ (col : Fin 64) (row : Fin 32), t.pixel col row = s.pixel col row
  dirty : c.dirty = false → t.dirty = s.dirty
  key : c.key = false → t.key = s.key
  mode : c.mode = false → t.mode = s.mode
  waitReg : c.waitReg = false → t.waitReg = s.waitReg
  mem : c.mem = false → ∀ a : Nat, t.byteAt a = s.byteAt a
  rndDraws : c.rndDraws = false → t.rndDraws = s.rndDraws
  events : c.events = false → t.events = s.events
  cfg : t.cfg = s.cfg

/-- One event of the given kind was put out, and no other (R229). The kind is all that is claimed of it (D20). -/
def OneEvent (code : Nat) (s t : State) : Prop := ∃ e : Event, e.code = code ∧ t.events = e :: s.events

/-- What each instruction may change beside PC, from the access tables of spec/10_state.md R21, R23, R25 to R34: the registers it
writes, and every other part that some execution of it writes. -/
def changesOf : Instr → Changes
  | .cls => { fb := true, dirty := true }
  | .ret => { sp := true, mode := true, events := true }
  | .sys _ => { events := true }
  | .jp _ => {}
  | .call _ => { stack := true, sp := true, mode := true, events := true }
  | .seImm _ _ => {}
  | .sneImm _ _ => {}
  | .seReg _ _ => {}
  | .ldImm x _ => { regs := [x] }
  | .addImm x _ => { regs := [x] }
  | .ldReg x _ => { regs := [x] }
  | .orReg x _ => { regs := [x] }
  | .andReg x _ => { regs := [x] }
  | .xorReg x _ => { regs := [x] }
  | .addReg x _ => { regs := [x, 15] }
  | .subReg x _ => { regs := [x, 15] }
  | .shr x _ => { regs := [x, 15] }
  | .subn x _ => { regs := [x, 15] }
  | .shl x _ => { regs := [x, 15] }
  | .sneReg _ _ => {}
  | .ldI _ => { i := true }
  | .jpV0 _ => {}
  | .rnd x _ => { regs := [x], rndDraws := true }
  | .drw _ _ _ => { regs := [15], fb := true, dirty := true }
  | .skp _ => {}
  | .sknp _ => {}
  | .ldVxDT x => { regs := [x] }
  | .ldVxK _ => { mode := true, waitReg := true }
  | .ldDTVx _ => { dt := true }
  | .ldSTVx _ => { st := true }
  | .addI _ => { i := true }
  | .ldF _ => { i := true }
  | .ldB _ => { mem := true }
  | .storeRegs _ => { mem := true }
  | .loadRegs x => { regs := (List.range (x.toNat + 1)).map (BitVec.ofNat 4) }

/-- A step in this state runs the instruction: the mode is RUNNING and the word at PC decodes to it (R120, R122, R123). -/
def State.runs (s : State) (i : Instr) : Prop := s.mode = .running ∧ ∃ w : Word, s.fetch = .ok w ∧ decodeWord w = some i

/-! ## Accesses inside memory -/

/-- The `n` bytes from `I` upward can be accessed: `MEM_OOB = wrap`, or the last of them is inside memory, or there is none
(R61, R62, R186). -/
def State.accessible (s : State) (n : Nat) : Prop := s.cfg.memOob = .wrap ∨ n = 0 ∨ s.i.toNat + n ≤ memSize

/-- An access to the address `I + k` uses the byte `p` of memory (R61, R62, R186). -/
def State.hitsByte (s : State) (k p : Nat) : Prop := s.resolve (s.indexed k) = .ok p

/-- The key index in a register can be used: up to 15, or `KEY_OOB = low_nibble` (R206). -/
def State.keyUsable (s : State) (x : Reg) : Prop := s.cfg.keyOob = .lowNibble ∨ (s.getV x).toNat ≤ 15

/-- DRW Vx,Vy,n executed in this state has a set sprite bit for the pixel: bit `7 - c` of the byte at `I + r`, for a row `r` below
n and a column offset `c` of 0 to 7, lands there, columns modulo 64 and rows modulo 32 (R191, R192). -/
def State.drawsOn (s : State) (x y : Reg) (n : Nibble) (col : Fin 64) (row : Fin 32) : Prop :=
  ∃ r c p : Nat, r < n.toNat ∧ c < 8 ∧ s.hitsByte r p ∧ (s.byteAt p).getLsbD (7 - c) = true ∧
    col.val = ((s.getV x).toNat % 64 + c) % 64 ∧ row.val = ((s.getV y).toNat % 32 + r) % 32

/-! ## Invariants -/

/-- Memory is in its canonical form. -/
def State.Canonical (s : State) : Prop := Memory.wf s.cfg.font s.mem

/-- The bounds that addresses keep under `MEM_OOB = fault`: PC is at most 0x10FE (R24), a waiting PC is that of a fetched
instruction (R24), and every live stack entry is at most 0x1000 (R140). -/
structure State.Bounded (s : State) : Prop where
  pc : s.pc.toNat ≤ 0x10FE
  waiting : s.mode = .waitingForKey → s.pc.toNat ≤ 0xFFE
  live : ∀ k : Fin 16, k.val < s.sp.val → s.stack[k].toNat ≤ 0x1000

/-- Both: what every state of a run under `MEM_OOB = fault` satisfies. -/
def State.Inv (s : State) : Prop := s.Canonical ∧ (s.cfg.memOob = .fault → s.Bounded)

/-! ## Runs -/

/-- The states that the environment can bring about: any transactions in any order after a `reset`, under any configuration
(R6, R39, R267). -/
inductive Reachable : State → Prop
  | afterReset (cfg : Config) : Reachable (State.resetWith cfg)
  | afterTransaction (a : Transaction) (s t : State) : Reachable s → transact a s = .next t → Reachable t

/-- A run of `k` steps from a state meets no model fault. -/
def FaultFree (k : Nat) (s : State) : Prop := ∃ t : State, Host.Core.run core k s = .next t

/-- Two states that agree on everything but what only the host reads: the events put out, DIRTY, and ST (R28, R30, R229). -/
def SameButOutputs (s t : State) : Prop := { s with events := [], dirty := false, st := 0 } = { t with events := [], dirty := false, st := 0 }

/-- Neither parameter is `fault`: every step from this state has a meaning (U1 to U3). -/
def State.total (s : State) : Prop := s.cfg.memOob = .wrap ∧ s.cfg.keyOob = .lowNibble

end Sys2Proof.Machine
end

