-- ==== Sys2Proof/Certificates/Slice0/Obligations.lean ====
section
/-! DEFINITION. The statements about the CHIP-8 CORE for the provers. Each names the rules of spec/ it formalises; where a clause
rests on one of the spec's own decisions (spec/92_eei_decisions.md D<n>) or on the model's choice, the docstring says so and
names the log entry (log n is notes/assumptions/n.md). `exec` is the operation of one instruction as `step` runs it in RUNNING
(R120): `StepRunsTheDecodedInstruction` carries every statement about `exec` to a step. -/

open Sys2Proof Sys2Proof.Machine

/-! ## Encoding (spec/30_encoding.md) -/

/-- R92, R95: no bit of an encoding is dropped. Every well-formed instruction, every operand at every value. -/
def Obligations.DecodeOfEncodeIsTheInstruction : Prop :=
  ∀ i : Instr, i.wf = true → decodeWord (encode i) = some i

/-- R95, R96: a word that decodes is the encoding of what it decodes to, so no two words are the same instruction. -/
def Obligations.DecodedWordIsItsEncoding : Prop :=
  ∀ (w : Word) (i : Instr), decodeWord w = some i → i.wf = true ∧ encode i = w

/-- R95: a word is the instruction of a row when `(w AND mask) = match`, CLS and RET before SYS (R96). The nibbles of the 8xy
family rest on D11 (log 20, PRESUMED), which of Fx07 and Fx15 is which on D30 (log 29, DEDUCED). -/
def Obligations.DecodeFollowsMaskAndMatch : Prop :=
  (∀ (w : Word) (i : Instr), decodeWord w = some i → w &&& i.mask = i.fixedBits) ∧
  (∀ (w : Word) (i : Instr), i.wf = true → w &&& i.mask = i.fixedBits → w ≠ 0x00E0#16 → w ≠ 0x00EE#16 →
    ∃ j : Instr, decodeWord w = some j ∧ j.fixedBits = i.fixedBits ∧ j.mask = i.mask) ∧
  decodeWord 0x00E0#16 = some .cls ∧ decodeWord 0x00EE#16 = some .ret

/-- R94, R97: the words with no instruction are exactly these five spaces. That 8xyn with n = 8 to D or F is unknown, the
other nibbles known, is D11 (log 20, PRESUMED). -/
def Obligations.UnknownWordsAreTheListedSpaces : Prop :=
  ∀ w : Word, decodeWord w = none ↔
    (opHi w = 0x5 ∧ opN w ≠ 0) ∨ (opHi w = 0x9 ∧ opN w ≠ 0) ∨
    (opHi w = 0x8 ∧ (opN w).toNat ∈ [0x8, 0x9, 0xA, 0xB, 0xC, 0xD, 0xF]) ∨
    (opHi w = 0xE ∧ (opKK w).toNat ∉ [0x9E, 0xA1]) ∨
    (opHi w = 0xF ∧ (opKK w).toNat ∉ [0x07, 0x0A, 0x15, 0x18, 0x1E, 0x29, 0x33, 0x55, 0x65])

/-- R64, R90: an instruction is two bytes, the high byte first, and decoding leaves the bytes after it. -/
def Obligations.DecodeReadsTwoBytesHighFirst : Prop :=
  ∀ (i : Instr) (rest : List Byte), i.wf = true →
    decode (encodeBytes i ++ rest) = .ok (i, rest) ∧
    encodeBytes i = [BitVec.ofNat 8 ((encode i).toNat / 256), BitVec.ofNat 8 ((encode i).toNat % 256)]

/-- Words of the spec's own examples (spec/41_control_flow.md to spec/45_keypad_timers.md), one or more for every value of hi
(R94). That 8xy7 is SUBN is D11 (log 20, PRESUMED). -/
def Obligations.SampleWordsDecode : Prop :=
  decodeWord 0x0FFF = some (.sys 0xFFF) ∧ decodeWord 0x1204 = some (.jp 0x204) ∧ decodeWord 0x2212 = some (.call 0x212) ∧
  decodeWord 0x5230 = some (.seReg 2 3) ∧ decodeWord 0x71FF = some (.addImm 1 0xFF) ∧ decodeWord 0x8017 = some (.subn 0 1) ∧
  decodeWord 0x820E = some (.shl 2 0) ∧ decodeWord 0xA300 = some (.ldI 0x300) ∧ decodeWord 0xC30F = some (.rnd 3 0x0F) ∧
  decodeWord 0xD011 = some (.drw 0 1 1) ∧ decodeWord 0xE0A1 = some (.sknp 0) ∧ decodeWord 0xF265 = some (.loadRegs 2) ∧
  decodeWord 0x3100 = some (.seImm 1 0x00) ∧ decodeWord 0x4100 = some (.sneImm 1 0x00) ∧
  decodeWord 0x6A3C = some (.ldImm 0xA 0x3C) ∧ decodeWord 0x9230 = some (.sneReg 2 3) ∧
  decodeWord 0xB300 = some (.jpV0 0x300) ∧ decodeWord 0x5AB1 = none

/-! ## The step cycle (spec/40_step_cycle.md) -/

/-- R120, R122, R123, R124: in RUNNING, when the two bytes at PC are those of a well-formed instruction, the step is that
instruction's operation and nothing around it. That its result is `Executed`, also where LD Vx,K enters the wait and CALL or
RET halts, is D25 (log 8, DESIGN CHOICE); where the
operation is a model fault the step has no result (log 8), and what `stepResult`, a function of the mode before the step, then reads
is no claim about the hardware. -/
def Obligations.StepRunsTheDecodedInstruction : Prop :=
  ∀ (s : State) (i : Instr), s.mode = .running → i.wf = true →
    s.memRead s.pc.toNat = .ok (highByte (encode i)) → s.memRead (s.pc.toNat + 1) = .ok (lowByte (encode i)) →
    step s = exec i s ∧ s.stepResult = .executed

/-- R120: in HALTED and WAITING_FOR_KEY not one bit of state changes, however many steps are issued. The names of the results
are D25's (log 8, DESIGN CHOICE). -/
def Obligations.StepsOutsideRunningDoNothing : Prop :=
  ∀ (s : State) (k : Nat), s.mode ≠ .running →
    Host.Core.run core k s = .next s ∧
    (s.mode = .halted → s.stepResult = .noWorkHalted) ∧ (s.mode = .waitingForKey → s.stepResult = .noWorkWaiting)

/-- R126: a word that matches no row is reported as UnknownOpcode and skipped. -/
def Obligations.UnknownWordIsReportedAndSkipped : Prop :=
  ∀ (s : State) (w : Word), s.mode = .running → s.fetch = .ok w → decodeWord w = none →
    ∃ t : State, step s = .next t ∧ t.pc = s.pc + 2 ∧ OneEvent 1 s t ∧ t.mode = .running ∧
      s.stepResult = .executed ∧ Unchanged { events := true } s t

/-- R63, R64, R65: a fetch inside memory, at an even or odd PC, answers `256 * MEM[PC] + MEM[PC + 1]`. Under `MEM_OOB = wrap`
each byte address is reduced modulo 4096 on its own (D5, log 3, DESIGN CHOICE). -/
def Obligations.FetchIsBigEndianAtAnyParity : Prop :=
  ∀ s : State,
    (s.pc.toNat ≤ 0xFFE →
      ∃ w : Word, s.fetch = .ok w ∧ w.toNat = 256 * (s.byteAt s.pc.toNat).toNat + (s.byteAt (s.pc.toNat + 1)).toNat) ∧
    (s.cfg.memOob = .wrap →
      ∃ w : Word, s.fetch = .ok w ∧
        w.toNat = 256 * (s.byteAt (s.pc.toNat % 4096)).toNat + (s.byteAt ((s.pc.toNat + 1) % 4096)).toNat)

/-- R63, U1: under `MEM_OOB = fault` a step with PC above 0xFFE is the model fault AddressOutOfRange (D5, log 3, DESIGN
CHOICE). -/
def Obligations.FetchOutsideMemoryFaults : Prop :=
  ∀ s : State, s.mode = .running → s.cfg.memOob = .fault → 0xFFE < s.pc.toNat → step s = .fault .addressOutOfRange

/-- U1 to U3: no step is ever refused; a step faults only as a parameter set to `fault` says; with neither so set, every step
of every state has a successor. The two parameters are D4, D5 (log 3) and D6 (log 4), DESIGN CHOICE. -/
def Obligations.StepStopsOnlyAsTheParametersSay : Prop :=
  ∀ s : State,
    (∀ r : Refusal, step s ≠ .refused r) ∧
    (∀ f : Fault, step s = .fault f →
      (f = .addressOutOfRange ∧ s.cfg.memOob = .fault) ∨ (f = .keyIndexOutOfRange ∧ s.cfg.keyOob = .fault)) ∧
    (s.total → ∃ t : State, step s = .next t)

/-- U1 to U3: when neither parameter is `fault`, no run of steps ever stops, however long and from whatever state. The two
parameters are D4, D5 (log 3) and D6 (log 4), DESIGN CHOICE. -/
def Obligations.RunsStopOnlyUnderAFaultParameter : Prop :=
  ∀ (steps : Nat) (s : State), s.total → FaultFree steps s

/-! ## Control transfer (spec/41_control_flow.md) -/

/-- R142: JP nnn, its encoding and its operation. -/
def Obligations.JumpSetsPcToItsTarget : Prop :=
  (∀ w : Word, opHi w = 0x1 → decodeWord w = some (.jp (opNNN w))) ∧
  ∀ (nnn : Imm12) (s : State), ∃ t : State, exec (.jp nnn) s = .next t ∧
    t.pc.toNat = nnn.toNat ∧ Unchanged {} s t

/-- R144 to R147: the four compare-skips, their encodings and their operations. -/
def Obligations.CompareSkipsAddFourOrTwo : Prop :=
  (∀ w : Word, (opHi w = 0x3 → decodeWord w = some (.seImm (opX w) (opKK w))) ∧
    (opHi w = 0x4 → decodeWord w = some (.sneImm (opX w) (opKK w))) ∧
    (opHi w = 0x5 → decodeWord w = if opN w = 0 then some (.seReg (opX w) (opY w)) else none) ∧
    (opHi w = 0x9 → decodeWord w = if opN w = 0 then some (.sneReg (opX w) (opY w)) else none)) ∧
  ∀ (x y : Reg) (kk : Byte) (s : State),
    (∃ t : State, exec (.seImm x kk) s = .next t ∧
      t.pc = (if (s.getV x).toNat = kk.toNat then s.pc + 4 else s.pc + 2) ∧ Unchanged {} s t) ∧
    (∃ t : State, exec (.sneImm x kk) s = .next t ∧
      t.pc = (if (s.getV x).toNat = kk.toNat then s.pc + 2 else s.pc + 4) ∧ Unchanged {} s t) ∧
    (∃ t : State, exec (.seReg x y) s = .next t ∧
      t.pc = (if (s.getV x).toNat = (s.getV y).toNat then s.pc + 4 else s.pc + 2) ∧ Unchanged {} s t) ∧
    (∃ t : State, exec (.sneReg x y) s = .next t ∧
      t.pc = (if (s.getV x).toNat = (s.getV y).toNat then s.pc + 2 else s.pc + 4) ∧ Unchanged {} s t)

/-- R148: JP V0,nnn; the sum fits in 16 bits and is not reduced to 12 (D32, log 31). -/
def Obligations.IndexedJumpAddsVZero : Prop :=
  ∀ (nnn : Imm12) (s : State), ∃ t : State, exec (.jpV0 nnn) s = .next t ∧
    t.pc.toNat = (s.getV 0).toNat + nnn.toNat ∧ Unchanged {} s t

/-- R143 with room on the stack: PC + 2 is stored (D2, log 14), the other entries are unchanged. -/
def Obligations.CallPushesTheReturnAddress : Prop :=
  ∀ (nnn : Imm12) (s : State), s.sp.val < 16 → ∃ t : State, exec (.call nnn) s = .next t ∧
    t.pc.toNat = nnn.toNat ∧ t.sp.val = s.sp.val + 1 ∧
    (∀ k : Fin 16, t.stack[k] = if k.val = s.sp.val then s.pc + 2 else s.stack[k]) ∧
    Unchanged { stack := true, sp := true } s t

/-- R140 with an entry on the stack: no + 2 is added, and the popped entry stays where it is (D37, log 34). -/
def Obligations.ReturnPopsTheReturnAddress : Prop :=
  ∀ s : State, 0 < s.sp.val → ∃ t : State, exec .ret s = .next t ∧
    t.sp.val + 1 = s.sp.val ∧ (∀ k : Fin 16, k.val = t.sp.val → t.pc = s.stack[k]) ∧ Unchanged { sp := true } s t

/-- R222, R223: a CALL on a full stack and a RET on an empty one report their condition and halt. That nothing else changes, PC
included, is D3 (log 15). -/
def Obligations.StackConditionsHalt : Prop :=
  ∀ (nnn : Imm12) (s : State),
    (s.sp.val = 16 → ∃ t : State, exec (.call nnn) s = .next t ∧ t.mode = .halted ∧ OneEvent 2 s t ∧
      t.pc = s.pc ∧ Unchanged { mode := true, events := true } s t) ∧
    (s.sp.val = 0 → ∃ t : State, exec .ret s = .next t ∧ t.mode = .halted ∧ OneEvent 3 s t ∧
      t.pc = s.pc ∧ Unchanged { mode := true, events := true } s t)

/-- Property S7 of spec/95_test_vectors.md: CALL and then RET, from any state that still has the stack and SP that CALL left,
restores PC to the instruction after the CALL, and SP. That CALL stores PC + 2 is D2 (log 14, DEDUCED). -/
def Obligations.CallThenReturnComesBack : Prop :=
  ∀ (nnn : Imm12) (s t u : State), s.sp.val < 16 → exec (.call nnn) s = .next t → u.stack = t.stack → u.sp = t.sp →
    ∃ r : State, exec .ret u = .next r ∧ r.pc = s.pc + 2 ∧ r.sp = s.sp

/-- R141: SYS does nothing but report and advance; that the report is UnknownOpcode is D33 (log 32). -/
def Obligations.SysReportsAndAdvances : Prop :=
  ∀ (nnn : Imm12) (s : State), ∃ t : State, exec (.sys nnn) s = .next t ∧
    t.pc = s.pc + 2 ∧ OneEvent 1 s t ∧ Unchanged { events := true } s t

/-! ## Load, arithmetic, logic, random (spec/42_load_alu.md) -/

/-- R160, R161, R162: LD Vx,kk, ADD Vx,kk and LD Vx,Vy, their encodings; they write V[x] and no flag. -/
def Obligations.LoadsAndImmediateAddWriteVx : Prop :=
  (∀ w : Word, (opHi w = 0x6 → decodeWord w = some (.ldImm (opX w) (opKK w))) ∧
    (opHi w = 0x7 → decodeWord w = some (.addImm (opX w) (opKK w))) ∧
    (opHi w = 0x8 → opN w = 0x0 → decodeWord w = some (.ldReg (opX w) (opY w)))) ∧
  ∀ (x y : Reg) (kk : Byte) (s : State),
    (∃ t : State, exec (.ldImm x kk) s = .next t ∧
      t.getV x = kk ∧ t.pc = s.pc + 2 ∧ Unchanged { regs := [x] } s t) ∧
    (∃ t : State, exec (.addImm x kk) s = .next t ∧
      (t.getV x).toNat = ((s.getV x).toNat + kk.toNat) % 256 ∧ t.pc = s.pc + 2 ∧ Unchanged { regs := [x] } s t) ∧
    (∃ t : State, exec (.ldReg x y) s = .next t ∧
      t.getV x = s.getV y ∧ t.pc = s.pc + 2 ∧ Unchanged { regs := [x] } s t)

/-- R163, R164, R165, bit by bit; that VF is left alone is D8 (log 17). -/
def Obligations.LogicIsBitwiseAndWritesNoFlag : Prop :=
  ∀ (x y : Reg) (s : State),
    (∃ t : State, exec (.orReg x y) s = .next t ∧
      (∀ k < 8, (t.getV x).getLsbD k = ((s.getV x).getLsbD k || (s.getV y).getLsbD k)) ∧
      t.pc = s.pc + 2 ∧ Unchanged { regs := [x] } s t) ∧
    (∃ t : State, exec (.andReg x y) s = .next t ∧
      (∀ k < 8, (t.getV x).getLsbD k = ((s.getV x).getLsbD k && (s.getV y).getLsbD k)) ∧
      t.pc = s.pc + 2 ∧ Unchanged { regs := [x] } s t) ∧
    (∃ t : State, exec (.xorReg x y) s = .next t ∧
      (∀ k < 8, (t.getV x).getLsbD k = ((s.getV x).getLsbD k ^^ (s.getV y).getLsbD k)) ∧
      t.pc = s.pc + 2 ∧ Unchanged { regs := [x] } s t)

/-- R158, R167: sum modulo 256 and carry. With x = 15 the flag remains (D7, log 16, DESIGN CHOICE). -/
def Obligations.AddGivesSumAndCarry : Prop :=
  ∀ (x y : Reg) (s : State), ∃ t : State, exec (.addReg x y) s = .next t ∧
    (x ≠ 15#4 → (t.getV x).toNat = ((s.getV x).toNat + (s.getV y).toNat) % 256) ∧
    (t.getV 15#4).toNat = (if 255 < (s.getV x).toNat + (s.getV y).toNat then 1 else 0) ∧
    t.pc = s.pc + 2 ∧ Unchanged { regs := [x, 15] } s t

/-- R158, R168, R170: difference modulo 256 and not-borrow, equality giving no borrow. With x = 15 the flag remains (D7, log
16, DESIGN CHOICE). -/
def Obligations.SubtractionsGiveDifferenceAndNotBorrow : Prop :=
  ∀ (x y : Reg) (s : State),
    (∃ t : State, exec (.subReg x y) s = .next t ∧
      (x ≠ 15#4 → (t.getV x).toNat = ((s.getV x).toNat + 256 - (s.getV y).toNat) % 256) ∧
      (t.getV 15#4).toNat = (if (s.getV y).toNat ≤ (s.getV x).toNat then 1 else 0) ∧
      t.pc = s.pc + 2 ∧ Unchanged { regs := [x, 15] } s t) ∧
    (∃ t : State, exec (.subn x y) s = .next t ∧
      (x ≠ 15#4 → (t.getV x).toNat = ((s.getV y).toNat + 256 - (s.getV x).toNat) % 256) ∧
      (t.getV 15#4).toNat = (if (s.getV x).toNat ≤ (s.getV y).toNat then 1 else 0) ∧
      t.pc = s.pc + 2 ∧ Unchanged { regs := [x, 15] } s t)

/-- R166, R169, R171: one bit position, the vacated bit 0, the dropped bit to VF, for both settings of `SHIFT_SOURCE` (D12,
log 5). With x = 15 the flag remains (D7, log 16, DESIGN CHOICE). -/
def Obligations.ShiftsMoveOneBitAndReportIt : Prop :=
  ∀ (x y : Reg) (s : State) (src : Nat),
    src = (match s.cfg.shiftSource with | .vx => (s.getV x).toNat | .vy => (s.getV y).toNat) →
    (∃ t : State, exec (.shr x y) s = .next t ∧
      (x ≠ 15#4 → (t.getV x).toNat = src / 2) ∧ (t.getV 15#4).toNat = src % 2 ∧
      t.pc = s.pc + 2 ∧ Unchanged { regs := [x, 15] } s t) ∧
    (∃ t : State, exec (.shl x y) s = .next t ∧
      (x ≠ 15#4 → (t.getV x).toNat = 2 * src % 256) ∧ (t.getV 15#4).toNat = src / 128 ∧
      t.pc = s.pc + 2 ∧ Unchanged { regs := [x, 15] } s t)

/-- R172: V[x] is the drawn byte AND kk, whatever the byte is (a free value: D21, log 6); a bit that is 0 in kk is
0 in the result; the next RND draws another byte. -/
def Obligations.RandomIsTheDrawnByteMasked : Prop :=
  ∀ (x : Reg) (kk : Byte) (s : State), ∃ t : State, exec (.rnd x kk) s = .next t ∧
    (∀ k < 8, (t.getV x).getLsbD k = ((Config.rndByte s.rndDraws).getLsbD k && kk.getLsbD k)) ∧
    (kk = 0 → t.getV x = 0) ∧ t.rndDraws = s.rndDraws + 1 ∧
    t.pc = s.pc + 2 ∧ Unchanged { regs := [x], rndDraws := true } s t

/-! ## Index register and memory (spec/43_index_memory.md) -/

/-- R180, R182: LD I,nnn and LD F,Vx, their encodings and their operations. -/
def Obligations.IndexLoadsGiveAddresses : Prop :=
  (∀ w : Word, (opHi w = 0xA → decodeWord w = some (.ldI (opNNN w))) ∧
    (opHi w = 0xF → opKK w = 0x29 → decodeWord w = some (.ldF (opX w)))) ∧
  ∀ (nnn : Imm12) (x : Reg) (s : State),
    (∃ t : State, exec (.ldI nnn) s = .next t ∧
      t.i.toNat = nnn.toNat ∧ t.pc = s.pc + 2 ∧ Unchanged { i := true } s t) ∧
    (∃ t : State, exec (.ldF x) s = .next t ∧
      t.i.toNat = 5 * ((s.getV x).toNat % 16) ∧ t.pc = s.pc + 2 ∧ Unchanged { i := true } s t)

/-- R181: modulo 65536, not masked to 12 bits; that VF is left alone is D10 (log 19). -/
def Obligations.AddToIndexWrapsAtSixteenBits : Prop :=
  ∀ (x : Reg) (s : State), ∃ t : State, exec (.addI x) s = .next t ∧
    t.i.toNat = (s.i.toNat + (s.getV x).toNat) % 65536 ∧ t.pc = s.pc + 2 ∧ Unchanged { i := true } s t

/-- R183: hundreds, tens and ones of V[x] at I, I + 1 and I + 2, and no other byte. That I is unchanged is D9 (log 18, DESIGN
CHOICE); above 0xFFF the addresses are those of `MEM_OOB = wrap` (D4, log 3). -/
def Obligations.DecimalDigitsAreStoredAtI : Prop :=
  ∀ (x : Reg) (s : State), s.accessible 3 → ∃ t : State, exec (.ldB x) s = .next t ∧
    (∀ p, s.hitsByte 0 p → (t.byteAt p).toNat = (s.getV x).toNat / 100) ∧
    (∀ p, s.hitsByte 1 p → (t.byteAt p).toNat = (s.getV x).toNat / 10 % 10) ∧
    (∀ p, s.hitsByte 2 p → (t.byteAt p).toNat = (s.getV x).toNat % 10) ∧
    (∀ a, (∀ k < 3, ¬ s.hitsByte k a) → t.byteAt a = s.byteAt a) ∧
    t.pc = s.pc + 2 ∧ Unchanged { mem := true } s t

/-- R184: V[0] to V[x] at I to I + x, and no other byte. That I is unchanged is D9 (log 18, DESIGN CHOICE); above 0xFFF the
addresses are those of `MEM_OOB = wrap` (D4, log 3). -/
def Obligations.RegistersAreStoredAtI : Prop :=
  ∀ (x : Reg) (s : State), s.accessible (x.toNat + 1) → ∃ t : State, exec (.storeRegs x) s = .next t ∧
    (∀ (r : Reg) (p : Nat), r.toNat ≤ x.toNat → s.hitsByte r.toNat p → t.byteAt p = s.getV r) ∧
    (∀ a, (∀ k ≤ x.toNat, ¬ s.hitsByte k a) → t.byteAt a = s.byteAt a) ∧
    t.pc = s.pc + 2 ∧ Unchanged { mem := true } s t

/-- R185: V[0] to V[x] from I to I + x; the registers above x and all of memory are unchanged. That I is unchanged is D9 (log
18, DESIGN CHOICE); above 0xFFF the addresses are those of `MEM_OOB = wrap` (D4, log 3). -/
def Obligations.RegistersAreLoadedFromI : Prop :=
  ∀ (x : Reg) (s : State), s.accessible (x.toNat + 1) → ∃ t : State, exec (.loadRegs x) s = .next t ∧
    (∀ (r : Reg) (p : Nat), r.toNat ≤ x.toNat → s.hitsByte r.toNat p → t.getV r = s.byteAt p) ∧
    (∀ r : Reg, x.toNat < r.toNat → t.getV r = s.getV r) ∧
    t.pc = s.pc + 2 ∧ Unchanged { regs := (List.range (x.toNat + 1)).map (BitVec.ofNat 4) } s t

/-- R184, R185: what LD [I],Vx stores, LD Vx,[I] gives back, whatever V[0] to V[x] have become in between. That the I which LD
[I],Vx leaves is the I it stored at is D9 (log 18, DESIGN CHOICE). -/
def Obligations.StoredRegistersLoadBack : Prop :=
  ∀ (x : Reg) (s t u r : State), exec (.storeRegs x) s = .next t →
    u.mem = t.mem → u.i = t.i → u.cfg = t.cfg → exec (.loadRegs x) u = .next r →
    ∀ q : Reg, q.toNat ≤ x.toNat → r.getV q = s.getV q

/-- R61, R62, U2 under the default `MEM_OOB = fault` (D4, log 3): the four memory instructions stop, with nothing
kept, when any address they use is above 0xFFF; DRW with n = 0 uses none. -/
def Obligations.DataAccessOutsideMemoryFaults : Prop :=
  ∀ (x y : Reg) (n : Nibble) (s : State), s.cfg.memOob = .fault →
    (0xFFF < s.i.toNat + 2 → exec (.ldB x) s = .fault .addressOutOfRange) ∧
    (0xFFF < s.i.toNat + x.toNat → exec (.storeRegs x) s = .fault .addressOutOfRange) ∧
    (0xFFF < s.i.toNat + x.toNat → exec (.loadRegs x) s = .fault .addressOutOfRange) ∧
    (n ≠ 0 → 0xFFF < s.i.toNat + n.toNat - 1 → exec (.drw x y n) s = .fault .addressOutOfRange)

/-! ## Display (spec/44_display.md) -/

/-- R190: CLS, its encoding and its operation. That DIRTY = 1 on a display already blank is conflict C3 and D23 (log 25,
DESIGN CHOICE). -/
def Obligations.ClearTurnsEveryPixelOff : Prop :=
  decodeWord 0x00E0#16 = some .cls ∧
  ∀ s : State, ∃ t : State, exec .cls s = .next t ∧
    (∀ (col : Fin 64) (row : Fin 32), t.pixel col row = false) ∧ t.dirty = true ∧
    t.pc = s.pc + 2 ∧ Unchanged { fb := true, dirty := true } s t

/-- R191: DRW toggles exactly the pixels that its set sprite bits land on, and VF says whether one of them was on. Which bit
is the leftmost pixel is D13 (log 21, PRESUMED); that the coordinates are read before VF is written is D7 (log 16), that I is
unchanged D9 (log 18), that n = 0 follows the same rule D24 (log 26), that DIRTY = 1 also where no pixel changes conflict C3
and D23 (log 25), all DESIGN CHOICE; above 0xFFF the addresses are those of `MEM_OOB = wrap` (D4, log 3). -/
def Obligations.DrawTogglesTheSpritePixels : Prop :=
  ∀ (x y : Reg) (n : Nibble) (s : State), s.accessible n.toNat → ∃ t : State, exec (.drw x y n) s = .next t ∧
    (∀ (col : Fin 64) (row : Fin 32),
      t.pixel col row = true ↔ (s.pixel col row = true ↔ ¬ s.drawsOn x y n col row)) ∧
    ((t.getV 15#4).toNat = 0 ∨ (t.getV 15#4).toNat = 1) ∧
    ((t.getV 15#4).toNat = 1 ↔ ∃ (col : Fin 64) (row : Fin 32), s.drawsOn x y n col row ∧ s.pixel col row = true) ∧
    t.dirty = true ∧ t.pc = s.pc + 2 ∧ Unchanged { regs := [15], fb := true, dirty := true } s t

/-- R193 (i): the same sprite drawn twice at the same place restores the display. I, V[x] and V[y] of the second draw are
taken equal to those of the first, so neither D9 nor D7 is used. -/
def Obligations.DrawingTwiceRestoresTheDisplay : Prop :=
  ∀ (x y : Reg) (n : Nibble) (s t u r : State), exec (.drw x y n) s = .next t →
    u.fb = t.fb → u.mem = s.mem → u.i = s.i → u.cfg = s.cfg → u.getV x = s.getV x → u.getV y = s.getV y →
    exec (.drw x y n) u = .next r → ∀ (col : Fin 64) (row : Fin 32), r.pixel col row = s.pixel col row

/-! ## Keypad and timers (spec/45_keypad_timers.md) -/

/-- R200, R201: the two key-skips, for a usable key index. An index above 15 is usable only under `KEY_OOB = low_nibble`,
where the low nibble names the key (R206; D6, log 4, DESIGN CHOICE). -/
def Obligations.KeySkipsTestTheNamedKey : Prop :=
  ∀ (x : Reg) (s : State) (k : Fin 16), s.keyUsable x → k.val = (s.getV x).toNat % 16 →
    (∃ t : State, exec (.skp x) s = .next t ∧
      t.pc = (if s.key[k] = true then s.pc + 4 else s.pc + 2) ∧ Unchanged {} s t) ∧
    (∃ t : State, exec (.sknp x) s = .next t ∧
      t.pc = (if s.key[k] = true then s.pc + 2 else s.pc + 4) ∧ Unchanged {} s t)

/-- R206, U3 under the default `KEY_OOB = fault` (D6, log 4). -/
def Obligations.UnusableKeyIndexFaults : Prop :=
  ∀ (x : Reg) (s : State), s.cfg.keyOob = .fault → 15 < (s.getV x).toNat →
    exec (.skp x) s = .fault .keyIndexOutOfRange ∧ exec (.sknp x) s = .fault .keyIndexOutOfRange

/-- R202, R204: LD Vx,DT and LD DT,Vx; which opcode reads is D30 (log 29). -/
def Obligations.DelayTimerIsReadAndWritten : Prop :=
  ∀ (x : Reg) (s : State),
    (∃ t : State, exec (.ldVxDT x) s = .next t ∧
      t.getV x = s.dt ∧ t.pc = s.pc + 2 ∧ Unchanged { regs := [x] } s t) ∧
    (∃ t : State, exec (.ldDTVx x) s = .next t ∧
      t.dt = s.getV x ∧ t.pc = s.pc + 2 ∧ Unchanged { dt := true } s t)

/-- R205: LD ST,Vx, and the output `sound_active`. -/
def Obligations.SoundTimerIsWritten : Prop :=
  ∀ (x : Reg) (s : State), ∃ t : State, exec (.ldSTVx x) s = .next t ∧
    t.st = s.getV x ∧ (t.soundActive = true ↔ 0 < (s.getV x).toNat) ∧ t.pc = s.pc + 2 ∧ Unchanged { st := true } s t

/-- R203: LD Vx,K enters the wait whatever keys are held (D35, log 33); PC stays. -/
def Obligations.KeyWaitIsEntered : Prop :=
  ∀ (x : Reg) (s : State), ∃ t : State, exec (.ldVxK x) s = .next t ∧
    t.mode = .waitingForKey ∧ t.waitReg = x ∧ t.pc = s.pc ∧ Unchanged { mode := true, waitReg := true } s t

/-- Property S10 of spec/95_test_vectors.md: LD Vx,K, then events in the wait, then a press: V[x] is the key, PC has advanced
by 2, MODE is RUNNING. The events in the wait are here one `set_key` release, one tick, and any number of steps. It holds for
a key already down (D34) and whatever keys were held at the start (D35; both log 33, DEDUCED), and for a release and a tick
that act in the wait (D22, log 24, DESIGN CHOICE). -/
def Obligations.KeyWaitRoundTrip : Prop :=
  ∀ (x : Reg) (s t u : State) (steps released pressed : Nat), pressed ≤ 15 → exec (.ldVxK x) s = .next t →
    Host.Core.run core steps (t.setKey released false).tickTimers = .next u →
    (u.setKey pressed true).mode = .running ∧ ((u.setKey pressed true).getV x).toNat = pressed ∧
      (u.setKey pressed true).pc = s.pc + 2 ∧ ∀ r : Reg, r ≠ x → (u.setKey pressed true).getV r = s.getV r

/-! ## The other transactions (spec/60_exceptions.md, spec/70_reset_and_hazards.md) -/

/-- R236: N ticks take N off each timer, down to 0, in every MODE (D22, log 24), and change nothing else. -/
def Obligations.TicksCountDownToZero : Prop :=
  ∀ (n : Nat) (s t : State), t = Nat.iterate State.tickTimers n s →
    t.dt.toNat = s.dt.toNat - n ∧ t.st.toNat = s.st.toNat - n ∧ t.pc = s.pc ∧ Unchanged { dt := true, st := true } s t

/-- R224, R239: `set_key` with an index above 15 only reports; else the latch follows the event in every MODE (D22, log 24),
and a press ends a wait whatever the latch held (D34, log 33). The index is a natural number (D26, log 27). -/
def Obligations.SetKeyLatchesAndEndsAWait : Prop :=
  ∀ (index : Nat) (pressed : Bool) (s : State),
    (15 < index → OneEvent 4 s (s.setKey index pressed) ∧ (s.setKey index pressed).pc = s.pc ∧
      Unchanged { events := true } s (s.setKey index pressed)) ∧
    (index ≤ 15 → ∀ k : Fin 16, (s.setKey index pressed).key[k] = if k.val = index then pressed else s.key[k]) ∧
    (index ≤ 15 → ¬ (s.mode = .waitingForKey ∧ pressed = true) →
      (s.setKey index pressed).pc = s.pc ∧ Unchanged { key := true } s (s.setKey index pressed)) ∧
    (index ≤ 15 → s.mode = .waitingForKey → pressed = true →
      ((s.setKey index pressed).getV s.waitReg).toNat = index ∧ (s.setKey index pressed).pc = s.pc + 2 ∧
      (s.setKey index pressed).mode = .running ∧
      Unchanged { regs := [s.waitReg], key := true, mode := true } s (s.setKey index pressed))

/-- R225, R262: the first 3584 bytes are copied to 0x200 upward, the count is returned, a longer image is reported. That
nothing else changes is D19 (log 23), that it acts in every MODE D22 (log 24). -/
def Obligations.LoadProgramCopiesTheImage : Prop :=
  ∀ (bytes : List Byte) (s t : State), transact (.loadProgram bytes) s = .next t →
    response (.loadProgram bytes) s = .count (min bytes.length 3584) ∧
    (∀ (k : Nat) (h : k < bytes.length), k < 3584 → t.byteAt (0x200 + k) = bytes[k]) ∧
    (∀ a, (a < 0x200 ∨ 0x200 + min bytes.length 3584 ≤ a) → t.byteAt a = s.byteAt a) ∧
    (3584 < bytes.length → OneEvent 5 s t) ∧ (bytes.length ≤ 3584 → t.events = s.events) ∧
    t.pc = s.pc ∧ Unchanged { mem := true, events := true } s t

/-- R38, R260, R261: `reset` from every state, every element of state. The source gives PC, MODE and the glyph region; the
zeros are D15 (log 10, DESIGN CHOICE), those of STACK too, whose entries are dead (R26, D37, log 34): 0x0000 is what R38 has a
model use that must pick. DIRTY = 1 is D16 (log 11), that it is total D17 (log 12). -/
def Obligations.ResetGivesTheResetValues : Prop :=
  ∀ (s t : State), transact .reset s = .next t →
    t.pc.toNat = 0x200 ∧ t.mode = .running ∧ (∀ (a : Nat) (h : a < 80), t.byteAt a = s.cfg.font[a]) ∧
    (∀ a, 80 ≤ a → t.byteAt a = 0) ∧ (∀ r : Reg, t.getV r = 0) ∧ t.i = 0 ∧ t.sp.val = 0 ∧
    (∀ k : Fin 16, t.stack[k] = 0) ∧ t.waitReg = 0 ∧ t.dt = 0 ∧ t.st = 0 ∧
    (∀ (col : Fin 64) (row : Fin 32), t.pixel col row = false) ∧ t.dirty = true ∧ (∀ k : Fin 16, t.key[k] = false) ∧
    t.cfg = s.cfg ∧ t.rndDraws = s.rndDraws ∧ t.events = s.events

/-- R241 to R243: `clear_dirty` clears DIRTY and nothing else (D23, log 25), in every MODE (D22, log 24), and the accessors
change nothing and read FB, DIRTY, `ST > 0` and MODE. -/
def Obligations.ClearDirtyAndAccessors : Prop :=
  ∀ (col : Fin 64) (row : Fin 32) (s : State),
    (∃ t : State, transact .clearDirty s = .next t ∧ t.dirty = false ∧ t.pc = s.pc ∧ Unchanged { dirty := true } s t) ∧
    (∀ a ∈ [Transaction.readPixel col row, .readDirty, .readSoundActive, .readMode], transact a s = .next s) ∧
    response (.readPixel col row) s = .bit (s.pixel col row) ∧ response .readDirty s = .bit s.dirty ∧
    response .readSoundActive s = .bit (decide (0 < s.st.toNat)) ∧ response .readMode s = .modeIs s.mode

/-! ## Invariants and rules of the whole machine -/

/-- The memory keeps its canonical form (the model's own form of R60, log 28): every step, from every state that
has it. -/
def Obligations.StepKeepsMemoryCanonical : Prop :=
  ∀ s t : State, s.Canonical → step s = .next t → t.Canonical

/-- Every transaction keeps the invariant: canonical memory (log 28) and, under `MEM_OOB = fault`, PC at most 0x10FE (R24), a
waiting PC inside memory (R24), live stack entries at most 0x1000 (R140). It rests on what CALL stores (D2, log 14), on JP V0
not being masked (D32, log 31), on PC staying at a fatal condition (D3, log 15) and, in the case of `reset`, on SP = 0 and the
zeros of memory (D15, log 10). -/
def Obligations.EveryTransactionKeepsTheInvariant : Prop :=
  ∀ (a : Transaction) (s t : State), s.Inv → transact a s = .next t → t.Inv

/-- R38: the reset state has the invariant, under every configuration; so has `State.reset`. PC = 0x200 is the source's; that
no stack entry is live rests on SP = 0 of D15 (log 10, DESIGN CHOICE); memory that lists nothing is the model's form of its
reset contents (D15, log 10; log 28). -/
def Obligations.ResetMeetsTheInvariant : Prop :=
  (∀ cfg : Config, (State.resetWith cfg).Inv) ∧ State.reset.Inv

/-- R6, R267: whatever transactions the environment issues after a `reset`, in whatever order, the invariant holds. It rests
on what EveryTransactionKeepsTheInvariant and ResetMeetsTheInvariant rest on (D2, D3, D15, D32; log 14, 15, 10, 31), and on
transactions not overlapping (D1, log 36). -/
def Obligations.ReachableStatesMeetTheInvariant : Prop :=
  ∀ s : State, Reachable s → s.Inv

/-- R37 (c): the configuration is fixed for the life of the block: no transaction changes it, and no run of steps (it stands in State
by the model's choice, log 1). -/
def Obligations.ConfigurationIsFixed : Prop :=
  (∀ (a : Transaction) (s t : State), transact a s = .next t → t.cfg = s.cfg) ∧
  (∀ (steps : Nat) (s t : State), Host.Core.run core steps s = .next t → t.cfg = s.cfg)

/-- R28, R237, R267: a step changes DT only by LD DT,Vx and ST only by LD ST,Vx. That LD DT,Vx is Fx15 is D30 (log 29,
DEDUCED). -/
def Obligations.OnlyTimerLoadsChangeTimersInAStep : Prop :=
  ∀ s t : State, step s = .next t →
    (t.dt = s.dt ∨ ∃ x : Reg, s.runs (.ldDTVx x) ∧ t.dt = s.getV x) ∧
    (t.st = s.st ∨ ∃ x : Reg, s.runs (.ldSTVx x) ∧ t.st = s.getV x)

/-- R29, R30: a step changes a pixel only by CLS or DRW, which set DIRTY (D23, log 25); no step clears DIRTY. -/
def Obligations.OnlyClearAndDrawChangeTheDisplay : Prop :=
  ∀ s t : State, step s = .next t →
    ((∃ (col : Fin 64) (row : Fin 32), t.pixel col row ≠ s.pixel col row) ∨ t.dirty ≠ s.dirty →
      t.dirty = true ∧ (s.runs .cls ∨ ∃ (x y : Reg) (n : Nibble), s.runs (.drw x y n)))

/-- R25, R26, R27, R31, R33, R35: who writes memory, I, STACK, SP, WAITREG and the key latch in a step. That no memory
instruction writes I is D9 (log 18), that RET leaves STACK as it is D37 (log 34), both DESIGN CHOICE. -/
def Obligations.WritersOfMemoryIndexStackAndKeys : Prop :=
  ∀ s t : State, step s = .next t →
    ((∃ a, t.byteAt a ≠ s.byteAt a) → ∃ x : Reg, s.runs (.ldB x) ∨ s.runs (.storeRegs x)) ∧
    (t.i ≠ s.i → (∃ nnn : Imm12, s.runs (.ldI nnn)) ∨ ∃ x : Reg, s.runs (.addI x) ∨ s.runs (.ldF x)) ∧
    (t.stack ≠ s.stack → ∃ nnn : Imm12, s.runs (.call nnn)) ∧
    (t.sp ≠ s.sp → (∃ nnn : Imm12, s.runs (.call nnn)) ∨ s.runs .ret) ∧
    (t.waitReg ≠ s.waitReg → ∃ x : Reg, s.runs (.ldVxK x)) ∧
    t.key = s.key

/-- R234: the mode transition table of every transaction. That `reset` gives RUNNING from HALTED and from the wait is D17 (log
12), that the other transactions act in every MODE and leave it D22 (log 24), that any press ends the wait D34 (log 33). -/
def Obligations.ModeTransitionsAreTheTable : Prop :=
  ∀ (a : Transaction) (s t : State), transact a s = .next t →
    (a = .reset → t.mode = .running) ∧
    (a ≠ .reset → s.mode = .halted → t.mode = .halted) ∧
    (s.mode = .running → t.mode = .running ∨
      (a = .step ∧ t.mode = .waitingForKey ∧ ∃ x : Reg, s.runs (.ldVxK x)) ∨
      (a = .step ∧ t.mode = .halted ∧
        ((s.sp.val = 16 ∧ ∃ nnn : Imm12, s.runs (.call nnn)) ∨ (s.sp.val = 0 ∧ s.runs .ret)))) ∧
    (s.mode = .waitingForKey → a ≠ .reset →
      (t.mode = .running ∧ ∃ k, k ≤ 15 ∧ a = .setKey k true) ∨
      (t.mode = .waitingForKey ∧ ∀ k, k ≤ 15 → a ≠ .setKey k true))

/-- R229, R231: a transaction puts out at most one event, and MODE becomes HALTED in a step only with a fatal one. The events
as a list in State are log 7, their codes D20 (log 7). -/
def Obligations.AtMostOneEventPerTransaction : Prop :=
  ∀ (a : Transaction) (s t : State), transact a s = .next t →
    (t.events = s.events ∨ ∃ e : Event, t.events = e :: s.events) ∧
    (s.mode ≠ .halted → t.mode = .halted → OneEvent 2 s t ∨ OneEvent 3 s t)

/-- R74, R269: a store is seen by the very next fetch. After LD [I],Vx with x >= 1 and I = PC + 2, the next step, in RUNNING, runs the
word V[0] || V[1]. -/
def Obligations.StoredCodeIsFetchedNext : Prop :=
  ∀ (x : Reg) (s t : State) (i : Instr), s.mode = .running → 1 ≤ x.toNat → s.i = s.pc + 2 → s.pc.toNat + 3 ≤ 0xFFF →
    exec (.storeRegs x) s = .next t → s.getV 0 = highByte (encode i) → s.getV 1 = lowByte (encode i) → i.wf = true →
    step t = exec i t

/-- R28, R30, R229: no instruction reads ST, DIRTY or the diagnostic channel: two states that agree on everything else step to
states that agree on everything else. The two steps receive the same random byte: they have the same count of draws, and equal
counts draw equal bytes, which is the model's choice and not the spec's (log 6, DESIGN CHOICE). -/
def Obligations.OutputsDoNotInfluenceExecution : Prop :=
  ∀ s s' t : State, SameButOutputs s s' → step s = .next t → ∃ t' : State, step s' = .next t' ∧ SameButOutputs t t'
end

