-- ==== Sys2Proof/Laws/State.lean ====
section
/-! SUPPORT. One lemma for each field of `State` under each primitive update, true by rfl, so that no later proof unfolds a record
update; and the same for the reads `getV`, `byteAt`, `pixel`, `resolve` and `indexed`. -/

namespace Sys2Proof.Machine

/-! ## `setV` -/

@[simp] theorem State.setV_i (s : State) (r : Reg) (b : Byte) : (s.setV r b).i = s.i := rfl
@[simp] theorem State.setV_pc (s : State) (r : Reg) (b : Byte) : (s.setV r b).pc = s.pc := rfl
@[simp] theorem State.setV_stack (s : State) (r : Reg) (b : Byte) : (s.setV r b).stack = s.stack := rfl
@[simp] theorem State.setV_sp (s : State) (r : Reg) (b : Byte) : (s.setV r b).sp = s.sp := rfl
@[simp] theorem State.setV_dt (s : State) (r : Reg) (b : Byte) : (s.setV r b).dt = s.dt := rfl
@[simp] theorem State.setV_st (s : State) (r : Reg) (b : Byte) : (s.setV r b).st = s.st := rfl
@[simp] theorem State.setV_fb (s : State) (r : Reg) (b : Byte) : (s.setV r b).fb = s.fb := rfl
@[simp] theorem State.setV_dirty (s : State) (r : Reg) (b : Byte) : (s.setV r b).dirty = s.dirty := rfl
@[simp] theorem State.setV_key (s : State) (r : Reg) (b : Byte) : (s.setV r b).key = s.key := rfl
@[simp] theorem State.setV_mode (s : State) (r : Reg) (b : Byte) : (s.setV r b).mode = s.mode := rfl
@[simp] theorem State.setV_waitReg (s : State) (r : Reg) (b : Byte) : (s.setV r b).waitReg = s.waitReg := rfl
@[simp] theorem State.setV_mem (s : State) (r : Reg) (b : Byte) : (s.setV r b).mem = s.mem := rfl
@[simp] theorem State.setV_cfg (s : State) (r : Reg) (b : Byte) : (s.setV r b).cfg = s.cfg := rfl
@[simp] theorem State.setV_rndDraws (s : State) (r : Reg) (b : Byte) : (s.setV r b).rndDraws = s.rndDraws := rfl
@[simp] theorem State.setV_events (s : State) (r : Reg) (b : Byte) : (s.setV r b).events = s.events := rfl
@[simp] theorem State.byteAt_setV (s : State) (r : Reg) (b : Byte) (a' : Nat) : (s.setV r b).byteAt a' = s.byteAt a' := rfl
@[simp] theorem State.pixel_setV (s : State) (r : Reg) (b : Byte) (col : Fin 64) (row : Fin 32) : (s.setV r b).pixel col row = s.pixel col row := rfl
@[simp] theorem State.resolve_setV (s : State) (r : Reg) (b : Byte) (a' : Nat) : (s.setV r b).resolve a' = s.resolve a' := rfl
@[simp] theorem State.indexed_setV (s : State) (r : Reg) (b : Byte) (k : Nat) : (s.setV r b).indexed k = s.indexed k := rfl

/-! ## `advance` -/

@[simp] theorem State.advance_v (s : State) : s.advance.v = s.v := rfl
@[simp] theorem State.advance_i (s : State) : s.advance.i = s.i := rfl
@[simp] theorem State.advance_pc (s : State) : s.advance.pc = s.pc + 2 := rfl
@[simp] theorem State.advance_stack (s : State) : s.advance.stack = s.stack := rfl
@[simp] theorem State.advance_sp (s : State) : s.advance.sp = s.sp := rfl
@[simp] theorem State.advance_dt (s : State) : s.advance.dt = s.dt := rfl
@[simp] theorem State.advance_st (s : State) : s.advance.st = s.st := rfl
@[simp] theorem State.advance_fb (s : State) : s.advance.fb = s.fb := rfl
@[simp] theorem State.advance_dirty (s : State) : s.advance.dirty = s.dirty := rfl
@[simp] theorem State.advance_key (s : State) : s.advance.key = s.key := rfl
@[simp] theorem State.advance_mode (s : State) : s.advance.mode = s.mode := rfl
@[simp] theorem State.advance_waitReg (s : State) : s.advance.waitReg = s.waitReg := rfl
@[simp] theorem State.advance_mem (s : State) : s.advance.mem = s.mem := rfl
@[simp] theorem State.advance_cfg (s : State) : s.advance.cfg = s.cfg := rfl
@[simp] theorem State.advance_rndDraws (s : State) : s.advance.rndDraws = s.rndDraws := rfl
@[simp] theorem State.advance_events (s : State) : s.advance.events = s.events := rfl
@[simp] theorem State.getV_advance (s : State) (q : Reg) : s.advance.getV q = s.getV q := rfl
@[simp] theorem State.byteAt_advance (s : State) (a' : Nat) : s.advance.byteAt a' = s.byteAt a' := rfl
@[simp] theorem State.pixel_advance (s : State) (col : Fin 64) (row : Fin 32) : s.advance.pixel col row = s.pixel col row := rfl
@[simp] theorem State.resolve_advance (s : State) (a' : Nat) : s.advance.resolve a' = s.resolve a' := rfl
@[simp] theorem State.indexed_advance (s : State) (k : Nat) : s.advance.indexed k = s.indexed k := rfl

/-! ## `skipIf` -/

@[simp] theorem State.skipIf_v (s : State) (c : Bool) : (s.skipIf c).v = s.v := rfl
@[simp] theorem State.skipIf_i (s : State) (c : Bool) : (s.skipIf c).i = s.i := rfl
@[simp] theorem State.skipIf_pc (s : State) (c : Bool) : (s.skipIf c).pc = if c then s.pc + 4 else s.pc + 2 := rfl
@[simp] theorem State.skipIf_stack (s : State) (c : Bool) : (s.skipIf c).stack = s.stack := rfl
@[simp] theorem State.skipIf_sp (s : State) (c : Bool) : (s.skipIf c).sp = s.sp := rfl
@[simp] theorem State.skipIf_dt (s : State) (c : Bool) : (s.skipIf c).dt = s.dt := rfl
@[simp] theorem State.skipIf_st (s : State) (c : Bool) : (s.skipIf c).st = s.st := rfl
@[simp] theorem State.skipIf_fb (s : State) (c : Bool) : (s.skipIf c).fb = s.fb := rfl
@[simp] theorem State.skipIf_dirty (s : State) (c : Bool) : (s.skipIf c).dirty = s.dirty := rfl
@[simp] theorem State.skipIf_key (s : State) (c : Bool) : (s.skipIf c).key = s.key := rfl
@[simp] theorem State.skipIf_mode (s : State) (c : Bool) : (s.skipIf c).mode = s.mode := rfl
@[simp] theorem State.skipIf_waitReg (s : State) (c : Bool) : (s.skipIf c).waitReg = s.waitReg := rfl
@[simp] theorem State.skipIf_mem (s : State) (c : Bool) : (s.skipIf c).mem = s.mem := rfl
@[simp] theorem State.skipIf_cfg (s : State) (c : Bool) : (s.skipIf c).cfg = s.cfg := rfl
@[simp] theorem State.skipIf_rndDraws (s : State) (c : Bool) : (s.skipIf c).rndDraws = s.rndDraws := rfl
@[simp] theorem State.skipIf_events (s : State) (c : Bool) : (s.skipIf c).events = s.events := rfl
@[simp] theorem State.getV_skipIf (s : State) (c : Bool) (q : Reg) : (s.skipIf c).getV q = s.getV q := rfl
@[simp] theorem State.byteAt_skipIf (s : State) (c : Bool) (a' : Nat) : (s.skipIf c).byteAt a' = s.byteAt a' := rfl
@[simp] theorem State.pixel_skipIf (s : State) (c : Bool) (col : Fin 64) (row : Fin 32) : (s.skipIf c).pixel col row = s.pixel col row := rfl
@[simp] theorem State.resolve_skipIf (s : State) (c : Bool) (a' : Nat) : (s.skipIf c).resolve a' = s.resolve a' := rfl
@[simp] theorem State.indexed_skipIf (s : State) (c : Bool) (k : Nat) : (s.skipIf c).indexed k = s.indexed k := rfl

/-! ## `jumpTo` -/

@[simp] theorem State.jumpTo_v (s : State) (a : Word) : (s.jumpTo a).v = s.v := rfl
@[simp] theorem State.jumpTo_i (s : State) (a : Word) : (s.jumpTo a).i = s.i := rfl
@[simp] theorem State.jumpTo_pc (s : State) (a : Word) : (s.jumpTo a).pc = a := rfl
@[simp] theorem State.jumpTo_stack (s : State) (a : Word) : (s.jumpTo a).stack = s.stack := rfl
@[simp] theorem State.jumpTo_sp (s : State) (a : Word) : (s.jumpTo a).sp = s.sp := rfl
@[simp] theorem State.jumpTo_dt (s : State) (a : Word) : (s.jumpTo a).dt = s.dt := rfl
@[simp] theorem State.jumpTo_st (s : State) (a : Word) : (s.jumpTo a).st = s.st := rfl
@[simp] theorem State.jumpTo_fb (s : State) (a : Word) : (s.jumpTo a).fb = s.fb := rfl
@[simp] theorem State.jumpTo_dirty (s : State) (a : Word) : (s.jumpTo a).dirty = s.dirty := rfl
@[simp] theorem State.jumpTo_key (s : State) (a : Word) : (s.jumpTo a).key = s.key := rfl
@[simp] theorem State.jumpTo_mode (s : State) (a : Word) : (s.jumpTo a).mode = s.mode := rfl
@[simp] theorem State.jumpTo_waitReg (s : State) (a : Word) : (s.jumpTo a).waitReg = s.waitReg := rfl
@[simp] theorem State.jumpTo_mem (s : State) (a : Word) : (s.jumpTo a).mem = s.mem := rfl
@[simp] theorem State.jumpTo_cfg (s : State) (a : Word) : (s.jumpTo a).cfg = s.cfg := rfl
@[simp] theorem State.jumpTo_rndDraws (s : State) (a : Word) : (s.jumpTo a).rndDraws = s.rndDraws := rfl
@[simp] theorem State.jumpTo_events (s : State) (a : Word) : (s.jumpTo a).events = s.events := rfl
@[simp] theorem State.getV_jumpTo (s : State) (a : Word) (q : Reg) : (s.jumpTo a).getV q = s.getV q := rfl
@[simp] theorem State.byteAt_jumpTo (s : State) (a : Word) (a' : Nat) : (s.jumpTo a).byteAt a' = s.byteAt a' := rfl
@[simp] theorem State.pixel_jumpTo (s : State) (a : Word) (col : Fin 64) (row : Fin 32) : (s.jumpTo a).pixel col row = s.pixel col row := rfl
@[simp] theorem State.resolve_jumpTo (s : State) (a : Word) (a' : Nat) : (s.jumpTo a).resolve a' = s.resolve a' := rfl
@[simp] theorem State.indexed_jumpTo (s : State) (a : Word) (k : Nat) : (s.jumpTo a).indexed k = s.indexed k := rfl

/-! ## `setI` -/

@[simp] theorem State.setI_v (s : State) (a : Word) : (s.setI a).v = s.v := rfl
@[simp] theorem State.setI_i (s : State) (a : Word) : (s.setI a).i = a := rfl
@[simp] theorem State.setI_pc (s : State) (a : Word) : (s.setI a).pc = s.pc := rfl
@[simp] theorem State.setI_stack (s : State) (a : Word) : (s.setI a).stack = s.stack := rfl
@[simp] theorem State.setI_sp (s : State) (a : Word) : (s.setI a).sp = s.sp := rfl
@[simp] theorem State.setI_dt (s : State) (a : Word) : (s.setI a).dt = s.dt := rfl
@[simp] theorem State.setI_st (s : State) (a : Word) : (s.setI a).st = s.st := rfl
@[simp] theorem State.setI_fb (s : State) (a : Word) : (s.setI a).fb = s.fb := rfl
@[simp] theorem State.setI_dirty (s : State) (a : Word) : (s.setI a).dirty = s.dirty := rfl
@[simp] theorem State.setI_key (s : State) (a : Word) : (s.setI a).key = s.key := rfl
@[simp] theorem State.setI_mode (s : State) (a : Word) : (s.setI a).mode = s.mode := rfl
@[simp] theorem State.setI_waitReg (s : State) (a : Word) : (s.setI a).waitReg = s.waitReg := rfl
@[simp] theorem State.setI_mem (s : State) (a : Word) : (s.setI a).mem = s.mem := rfl
@[simp] theorem State.setI_cfg (s : State) (a : Word) : (s.setI a).cfg = s.cfg := rfl
@[simp] theorem State.setI_rndDraws (s : State) (a : Word) : (s.setI a).rndDraws = s.rndDraws := rfl
@[simp] theorem State.setI_events (s : State) (a : Word) : (s.setI a).events = s.events := rfl
@[simp] theorem State.getV_setI (s : State) (a : Word) (q : Reg) : (s.setI a).getV q = s.getV q := rfl
@[simp] theorem State.byteAt_setI (s : State) (a : Word) (a' : Nat) : (s.setI a).byteAt a' = s.byteAt a' := rfl
@[simp] theorem State.pixel_setI (s : State) (a : Word) (col : Fin 64) (row : Fin 32) : (s.setI a).pixel col row = s.pixel col row := rfl
@[simp] theorem State.resolve_setI (s : State) (a : Word) (a' : Nat) : (s.setI a).resolve a' = s.resolve a' := rfl

/-! ## `setByte` -/

@[simp] theorem State.setByte_v (s : State) (p : Nat) (b : Byte) : (s.setByte p b).v = s.v := rfl
@[simp] theorem State.setByte_i (s : State) (p : Nat) (b : Byte) : (s.setByte p b).i = s.i := rfl
@[simp] theorem State.setByte_pc (s : State) (p : Nat) (b : Byte) : (s.setByte p b).pc = s.pc := rfl
@[simp] theorem State.setByte_stack (s : State) (p : Nat) (b : Byte) : (s.setByte p b).stack = s.stack := rfl
@[simp] theorem State.setByte_sp (s : State) (p : Nat) (b : Byte) : (s.setByte p b).sp = s.sp := rfl
@[simp] theorem State.setByte_dt (s : State) (p : Nat) (b : Byte) : (s.setByte p b).dt = s.dt := rfl
@[simp] theorem State.setByte_st (s : State) (p : Nat) (b : Byte) : (s.setByte p b).st = s.st := rfl
@[simp] theorem State.setByte_fb (s : State) (p : Nat) (b : Byte) : (s.setByte p b).fb = s.fb := rfl
@[simp] theorem State.setByte_dirty (s : State) (p : Nat) (b : Byte) : (s.setByte p b).dirty = s.dirty := rfl
@[simp] theorem State.setByte_key (s : State) (p : Nat) (b : Byte) : (s.setByte p b).key = s.key := rfl
@[simp] theorem State.setByte_mode (s : State) (p : Nat) (b : Byte) : (s.setByte p b).mode = s.mode := rfl
@[simp] theorem State.setByte_waitReg (s : State) (p : Nat) (b : Byte) : (s.setByte p b).waitReg = s.waitReg := rfl
@[simp] theorem State.setByte_mem (s : State) (p : Nat) (b : Byte) : (s.setByte p b).mem = memStore s.cfg.font s.mem p b := rfl
@[simp] theorem State.setByte_cfg (s : State) (p : Nat) (b : Byte) : (s.setByte p b).cfg = s.cfg := rfl
@[simp] theorem State.setByte_rndDraws (s : State) (p : Nat) (b : Byte) : (s.setByte p b).rndDraws = s.rndDraws := rfl
@[simp] theorem State.setByte_events (s : State) (p : Nat) (b : Byte) : (s.setByte p b).events = s.events := rfl
@[simp] theorem State.getV_setByte (s : State) (p : Nat) (b : Byte) (q : Reg) : (s.setByte p b).getV q = s.getV q := rfl
@[simp] theorem State.pixel_setByte (s : State) (p : Nat) (b : Byte) (col : Fin 64) (row : Fin 32) : (s.setByte p b).pixel col row = s.pixel col row := rfl
@[simp] theorem State.resolve_setByte (s : State) (p : Nat) (b : Byte) (a' : Nat) : (s.setByte p b).resolve a' = s.resolve a' := rfl
@[simp] theorem State.indexed_setByte (s : State) (p : Nat) (b : Byte) (k : Nat) : (s.setByte p b).indexed k = s.indexed k := rfl

/-! ## `show` -/

@[simp] theorem State.show_v (s : State) (d : FrameBuffer) : (s.show d).v = s.v := rfl
@[simp] theorem State.show_i (s : State) (d : FrameBuffer) : (s.show d).i = s.i := rfl
@[simp] theorem State.show_pc (s : State) (d : FrameBuffer) : (s.show d).pc = s.pc := rfl
@[simp] theorem State.show_stack (s : State) (d : FrameBuffer) : (s.show d).stack = s.stack := rfl
@[simp] theorem State.show_sp (s : State) (d : FrameBuffer) : (s.show d).sp = s.sp := rfl
@[simp] theorem State.show_dt (s : State) (d : FrameBuffer) : (s.show d).dt = s.dt := rfl
@[simp] theorem State.show_st (s : State) (d : FrameBuffer) : (s.show d).st = s.st := rfl
@[simp] theorem State.show_fb (s : State) (d : FrameBuffer) : (s.show d).fb = d := rfl
@[simp] theorem State.show_dirty (s : State) (d : FrameBuffer) : (s.show d).dirty = true := rfl
@[simp] theorem State.show_key (s : State) (d : FrameBuffer) : (s.show d).key = s.key := rfl
@[simp] theorem State.show_mode (s : State) (d : FrameBuffer) : (s.show d).mode = s.mode := rfl
@[simp] theorem State.show_waitReg (s : State) (d : FrameBuffer) : (s.show d).waitReg = s.waitReg := rfl
@[simp] theorem State.show_mem (s : State) (d : FrameBuffer) : (s.show d).mem = s.mem := rfl
@[simp] theorem State.show_cfg (s : State) (d : FrameBuffer) : (s.show d).cfg = s.cfg := rfl
@[simp] theorem State.show_rndDraws (s : State) (d : FrameBuffer) : (s.show d).rndDraws = s.rndDraws := rfl
@[simp] theorem State.show_events (s : State) (d : FrameBuffer) : (s.show d).events = s.events := rfl
@[simp] theorem State.getV_show (s : State) (d : FrameBuffer) (q : Reg) : (s.show d).getV q = s.getV q := rfl
@[simp] theorem State.byteAt_show (s : State) (d : FrameBuffer) (a' : Nat) : (s.show d).byteAt a' = s.byteAt a' := rfl
@[simp] theorem State.resolve_show (s : State) (d : FrameBuffer) (a' : Nat) : (s.show d).resolve a' = s.resolve a' := rfl
@[simp] theorem State.indexed_show (s : State) (d : FrameBuffer) (k : Nat) : (s.show d).indexed k = s.indexed k := rfl

/-! ## `raise` -/

@[simp] theorem State.raise_v (s : State) (e : Event) : (s.raise e).v = s.v := rfl
@[simp] theorem State.raise_i (s : State) (e : Event) : (s.raise e).i = s.i := rfl
@[simp] theorem State.raise_pc (s : State) (e : Event) : (s.raise e).pc = s.pc := rfl
@[simp] theorem State.raise_stack (s : State) (e : Event) : (s.raise e).stack = s.stack := rfl
@[simp] theorem State.raise_sp (s : State) (e : Event) : (s.raise e).sp = s.sp := rfl
@[simp] theorem State.raise_dt (s : State) (e : Event) : (s.raise e).dt = s.dt := rfl
@[simp] theorem State.raise_st (s : State) (e : Event) : (s.raise e).st = s.st := rfl
@[simp] theorem State.raise_fb (s : State) (e : Event) : (s.raise e).fb = s.fb := rfl
@[simp] theorem State.raise_dirty (s : State) (e : Event) : (s.raise e).dirty = s.dirty := rfl
@[simp] theorem State.raise_key (s : State) (e : Event) : (s.raise e).key = s.key := rfl
@[simp] theorem State.raise_mode (s : State) (e : Event) : (s.raise e).mode = if e.fatal then .halted else s.mode := rfl
@[simp] theorem State.raise_waitReg (s : State) (e : Event) : (s.raise e).waitReg = s.waitReg := rfl
@[simp] theorem State.raise_mem (s : State) (e : Event) : (s.raise e).mem = s.mem := rfl
@[simp] theorem State.raise_cfg (s : State) (e : Event) : (s.raise e).cfg = s.cfg := rfl
@[simp] theorem State.raise_rndDraws (s : State) (e : Event) : (s.raise e).rndDraws = s.rndDraws := rfl
@[simp] theorem State.raise_events (s : State) (e : Event) : (s.raise e).events = e :: s.events := rfl
@[simp] theorem State.getV_raise (s : State) (e : Event) (q : Reg) : (s.raise e).getV q = s.getV q := rfl
@[simp] theorem State.byteAt_raise (s : State) (e : Event) (a' : Nat) : (s.raise e).byteAt a' = s.byteAt a' := rfl
@[simp] theorem State.pixel_raise (s : State) (e : Event) (col : Fin 64) (row : Fin 32) : (s.raise e).pixel col row = s.pixel col row := rfl
@[simp] theorem State.resolve_raise (s : State) (e : Event) (a' : Nat) : (s.raise e).resolve a' = s.resolve a' := rfl
@[simp] theorem State.indexed_raise (s : State) (e : Event) (k : Nat) : (s.raise e).indexed k = s.indexed k := rfl

/-! ## Registers (R20) -/

@[simp] theorem State.getV_setV_same (s : State) (r : Reg) (b : Byte) : (s.setV r b).getV r = b := by
  simp [State.getV, State.setV]

theorem State.getV_setV_ne (s : State) (r q : Reg) (b : Byte) (h : q ≠ r) : (s.setV r b).getV q = s.getV q := by
  have h' : r.toNat ≠ q.toNat := fun e => h (BitVec.eq_of_toNat_eq e.symm)
  simp [State.getV, State.setV, Vector.getElem_set_ne, h']

theorem State.getV_setV (s : State) (r q : Reg) (b : Byte) : (s.setV r b).getV q = if q = r then b else s.getV q := by
  split
  · next h => subst h; simp
  · next h => exact s.getV_setV_ne r q b h

/-- Two register files that read alike are equal. -/
theorem State.v_ext (s t : State) (h : ∀ r : Reg, s.getV r = t.getV r) : s.v = t.v := by
  ext k hk
  have := h (BitVec.ofNat 4 k)
  simp only [State.getV, BitVec.toNat_ofNat] at this
  have hm : k % 2 ^ 4 = k := Nat.mod_eq_of_lt hk
  simp only [hm] at this
  rw [this]

end Sys2Proof.Machine
end

