-- ==== Sys2Proof/Laws/Memory.lean ====
section
/-! SUPPORT. Memory: read after write, the canonical form kept by every operation, and what each access primitive of
spec/20_memory.md R61 to R63 can do. -/

namespace Sys2Proof.Machine

/-! ## The list -/

theorem memLookup_memErase_same (font : Font) (m : Memory) (a : Nat) :
    memLookup font (memErase m a) a = unlistedByte font a := by
  induction m with
  | nil => rfl
  | cons c m ih =>
    simp only [memErase, List.filter_cons] at ih ⊢
    by_cases h : c.1 = a <;> simp [h, memLookup, ih]

theorem memLookup_memErase_other (font : Font) (m : Memory) (a p : Nat) (h : p ≠ a) :
    memLookup font (memErase m a) p = memLookup font m p := by
  induction m with
  | nil => rfl
  | cons c m ih =>
    simp only [memErase, List.filter_cons] at ih ⊢
    by_cases hc : c.1 = a
    · simp [hc, memLookup, ih, h.symm]
    · simp [hc, memLookup, ih]

theorem memLookup_memInsert_same (font : Font) (m : Memory) (a : Nat) (b : Byte) :
    memLookup font (memInsert m a b) a = b := by
  induction m with
  | nil => simp [memInsert, memLookup]
  | cons c m ih =>
    simp only [memInsert]
    split
    · simp [memLookup]
    · split
      · simp [memLookup]
      · next h => simp [memLookup, ih, Ne.symm h]

theorem memLookup_memInsert_other (font : Font) (m : Memory) (a p : Nat) (b : Byte) (h : p ≠ a) :
    memLookup font (memInsert m a b) p = memLookup font m p := by
  induction m with
  | nil => simp [memInsert, memLookup, h.symm]
  | cons c m ih =>
    simp only [memInsert]
    split
    · simp [memLookup, h.symm]
    · split
      · next ha => simp [memLookup, ← ha, h.symm]
      · simp [memLookup, ih]

/-- Read after write, the same address. -/
@[simp] theorem memLookup_memStore_same (font : Font) (m : Memory) (a : Nat) (b : Byte) :
    memLookup font (memStore font m a b) a = b := by
  unfold memStore
  split
  · next h => rw [memLookup_memErase_same, h]
  · exact memLookup_memInsert_same font m a b

/-- Read after write, any other address. -/
theorem memLookup_memStore_other (font : Font) (m : Memory) (a p : Nat) (b : Byte) (h : p ≠ a) :
    memLookup font (memStore font m a b) p = memLookup font m p := by
  unfold memStore
  split
  · exact memLookup_memErase_other font m a p h
  · exact memLookup_memInsert_other font m a p b h

theorem mem_memInsert (m : Memory) (a : Nat) (b : Byte) (c : Host.Cell) (h : c ∈ memInsert m a b) :
    c = (a, b) ∨ c ∈ m := by
  induction m with
  | nil => simpa [memInsert] using h
  | cons d m ih =>
    simp only [memInsert] at h
    split at h
    · simpa using h
    · split at h
      · simp only [List.mem_cons] at h ⊢; tauto
      · simp only [List.mem_cons] at h ⊢
        rcases h with h | h
        · exact .inr (.inl h)
        · rcases ih h with h | h <;> tauto

theorem pairwise_memInsert (m : Memory) (a : Nat) (b : Byte) (h : m.Pairwise fun c d => c.1 < d.1) :
    (memInsert m a b).Pairwise fun c d => c.1 < d.1 := by
  induction m with
  | nil => simp [memInsert]
  | cons d m ih =>
    obtain ⟨hd, hm⟩ := List.pairwise_cons.mp h
    simp only [memInsert]
    split
    · next lt =>
      refine List.pairwise_cons.mpr ⟨fun e he => ?_, h⟩
      rcases List.mem_cons.mp he with rfl | he
      · exact lt
      · exact Nat.lt_trans lt (hd e he)
    · split
      · next ha => exact List.pairwise_cons.mpr ⟨fun e he => ha ▸ hd e he, hm⟩
      · next hlt hne =>
        refine List.pairwise_cons.mpr ⟨fun e he => ?_, ih hm⟩
        rcases mem_memInsert m a b e he with rfl | he
        · exact Nat.lt_of_le_of_ne (Nat.le_of_not_lt hlt) (Ne.symm hne)
        · exact hd e he

/-- Writing one byte of memory keeps the canonical form. -/
theorem Memory.wf_memStore (font : Font) (m : Memory) (a : Nat) (b : Byte) (ha : a < memSize) (h : Memory.wf font m) :
    Memory.wf font (memStore font m a b) := by
  unfold memStore
  split
  · exact ⟨h.1.sublist (List.filter_sublist), fun c hc => h.2 c (List.mem_of_mem_filter hc)⟩
  · next hb =>
    refine ⟨pairwise_memInsert m a b h.1, fun c hc => ?_⟩
    rcases mem_memInsert m a b c hc with rfl | hc
    · exact ⟨ha, hb⟩
    · exact h.2 c hc

/-- A byte that the canonical form lists reads as listed. -/
theorem memLookup_of_mem (font : Font) (m : Memory) (h : m.Pairwise fun c d => c.1 < d.1) (c : Host.Cell) (hc : c ∈ m) :
    memLookup font m c.1 = c.2 := by
  induction m with
  | nil => simp at hc
  | cons d m ih =>
    obtain ⟨hd, hm⟩ := List.pairwise_cons.mp h
    rcases List.mem_cons.mp hc with rfl | hc
    · simp [memLookup]
    · have : d.1 ≠ c.1 := Nat.ne_of_lt (hd c hc)
      simp [memLookup, this, ih hm hc]

/-! ## `setByte` -/

@[simp] theorem State.byteAt_setByte_same (s : State) (p : Nat) (b : Byte) : (s.setByte p b).byteAt p = b := by
  simp [State.byteAt]

theorem State.byteAt_setByte_other (s : State) (p a : Nat) (b : Byte) (h : a ≠ p) :
    (s.setByte p b).byteAt a = s.byteAt a := memLookup_memStore_other _ _ _ _ _ h

/-! ## `resolve` (R61, R62) -/

theorem State.resolve_congr (s t : State) (h : t.cfg = s.cfg) (a : Nat) : t.resolve a = s.resolve a := by
  simp [State.resolve, h]

theorem State.resolve_inside (s : State) (a : Nat) (h : a ≤ 0xFFF) : s.resolve a = .ok a := by
  simp [State.resolve, h]

/-- Everything `resolve` can answer. -/
theorem State.resolve_ok (s : State) (a p : Nat) (h : s.resolve a = .ok p) :
    (a ≤ 0xFFF ∧ p = a) ∨ (0xFFF < a ∧ s.cfg.memOob = .wrap ∧ p = a % memSize) := by
  unfold State.resolve at h
  split at h
  · next ha => exact .inl ⟨ha, by simpa using h.symm⟩
  · next ha =>
    split at h
    · simp at h
    · next hw => exact .inr ⟨Nat.lt_of_not_le ha, hw, by simpa using h.symm⟩

theorem State.resolve_error (s : State) (a : Nat) (f : Fault) (h : s.resolve a = .error f) :
    0xFFF < a ∧ s.cfg.memOob = .fault ∧ f = .addressOutOfRange := by
  unfold State.resolve at h
  split at h
  · simp at h
  · next ha =>
    split at h
    · next hf => exact ⟨Nat.lt_of_not_le ha, hf, by simpa using h.symm⟩
    · simp at h

theorem State.resolve_lt (s : State) (a p : Nat) (h : s.resolve a = .ok p) : p < memSize := by
  rcases s.resolve_ok a p h with ⟨ha, rfl⟩ | ⟨_, _, rfl⟩
  · simp only [memSize]; omega
  · exact Nat.mod_lt _ (by decide)

/-- Two of at most 4096 consecutive addresses use the same byte only if they are the same. -/
theorem State.resolve_inj (s : State) (a j k p : Nat) (hj : j < memSize) (hk : k < memSize)
    (h1 : s.resolve (a + j) = .ok p) (h2 : s.resolve (a + k) = .ok p) : j = k := by
  simp only [memSize] at hj hk
  rcases s.resolve_ok _ _ h1 with ⟨_, e1⟩ | ⟨_, _, e1⟩ <;> rcases s.resolve_ok _ _ h2 with ⟨_, e2⟩ | ⟨_, _, e2⟩ <;>
    (try simp only [memSize] at e1 e2) <;> omega

theorem State.resolve_ok_of (s : State) (a : Nat) (h : s.cfg.memOob = .wrap ∨ a ≤ 0xFFF) : ∃ p, s.resolve a = .ok p := by
  cases hr : s.resolve a with
  | ok p => exact ⟨p, rfl⟩
  | error f =>
    obtain ⟨h1, h2, _⟩ := s.resolve_error a f hr
    rcases h with h | h
    · simp [h] at h2
    · omega

theorem State.resolve_fault (s : State) (a : Nat) (hf : s.cfg.memOob = .fault) (ha : 0xFFF < a) :
    s.resolve a = .error .addressOutOfRange := by
  simp [State.resolve, Nat.not_le.mpr ha, hf]

theorem State.memRead_error (s : State) (a : Nat) (f : Fault) (h : s.memRead a = .error f) :
    f = .addressOutOfRange ∧ s.cfg.memOob = .fault := by
  unfold State.memRead at h
  split at h
  · simp at h
  · next g hg => obtain rfl := by simpa using h
                 exact ⟨(s.resolve_error _ _ hg).2.2, (s.resolve_error _ _ hg).2.1⟩

/-! ## Several reads -/

/-- `memReads` answers the bytes at the resolved addresses, one for each. -/
theorem State.memReads_ok (s : State) (a n : Nat) (bs : List Byte) (h : s.memReads a n = .ok bs) :
    bs.length = n ∧ ∀ k (hk : k < bs.length), ∃ p, s.resolve (a + k) = .ok p ∧ bs[k] = s.byteAt p := by
  induction n generalizing a bs with
  | zero =>
    have : bs = [] := by simpa [State.memReads] using h.symm
    subst this; simp
  | succ n ih =>
    unfold State.memReads State.memRead at h
    cases hr : s.resolve a with
    | error f => simp [hr] at h
    | ok p =>
      simp only [hr] at h
      cases hb : s.memReads (a + 1) n with
      | error f => simp [hb] at h
      | ok cs =>
        simp only [hb, Except.ok.injEq] at h
        subst h
        obtain ⟨hl, hc⟩ := ih (a + 1) cs hb
        refine ⟨by simp [hl], fun k hk => ?_⟩
        cases k with
        | zero => exact ⟨p, hr, rfl⟩
        | succ k =>
          obtain ⟨q, hq, e⟩ := hc k (by simpa using hk)
          exact ⟨q, by rw [← hq]; congr 1; omega, by simpa using e⟩

theorem State.memReads_succeeds (s : State) (a n : Nat) (h : ∀ k < n, ∃ p, s.resolve (a + k) = .ok p) :
    ∃ bs, s.memReads a n = .ok bs := by
  induction n generalizing a with
  | zero => exact ⟨[], rfl⟩
  | succ n ih =>
    obtain ⟨p, hp⟩ := h 0 (by omega)
    obtain ⟨bs, hbs⟩ := ih (a + 1) fun k hk => by
      obtain ⟨q, hq⟩ := h (k + 1) (by omega)
      exact ⟨q, by rw [← hq]; congr 1; omega⟩
    simp only [Nat.add_zero] at hp
    exact ⟨s.byteAt p :: bs, by simp [State.memReads, State.memRead, hp, hbs]⟩

theorem State.memReads_faults (s : State) (a n k : Nat) (hk : k < n) (h : s.resolve (a + k) = .error .addressOutOfRange) :
    s.memReads a n = .error .addressOutOfRange := by
  induction n generalizing a k with
  | zero => omega
  | succ n ih =>
    unfold State.memReads State.memRead
    cases hr : s.resolve a with
    | error f => simp [(s.resolve_error a f hr).2.2]
    | ok p =>
      cases k with
      | zero => simp [hr] at h
      | succ k => simp [ih (a + 1) k (by omega) (by rw [← h]; congr 1; omega)]

theorem State.memReads_error (s : State) (a n : Nat) (f : Fault) (h : s.memReads a n = .error f) :
    f = .addressOutOfRange ∧ s.cfg.memOob = .fault := by
  induction n generalizing a with
  | zero => simp [State.memReads] at h
  | succ n ih =>
    unfold State.memReads at h
    split at h
    · next g hg => obtain rfl := by simpa using h
                   exact s.memRead_error _ _ hg
    · split at h
      · next g hg => obtain rfl := by simpa using h
                     exact ih _ hg
      · simp at h

/-! ## Several writes -/

theorem State.memWrites_cons (s : State) (a : Nat) (b : Byte) (bs : List Byte) :
    s.memWrites a (b :: bs) =
      match s.resolve a with
      | .ok p => (s.setByte p b).memWrites (a + 1) bs
      | .error f => .error f := by
  rw [State.memWrites, State.memWrite]
  cases s.resolve a <;> rfl

/-- `memWrites` changes nothing but memory. -/
theorem State.memWrites_frame (s t : State) (a : Nat) (bs : List Byte) (h : s.memWrites a bs = .ok t) :
    t = { s with mem := t.mem } := by
  induction bs generalizing s a with
  | nil =>
    have : s = t := by simpa [State.memWrites] using h
    subst this; rfl
  | cons b bs ih =>
    rw [State.memWrites_cons] at h
    cases hr : s.resolve a with
    | error f => simp [hr] at h
    | ok p =>
      simp only [hr] at h
      have := ih _ _ h
      rw [this]; rfl

/-- What memory holds after `memWrites`: every byte not written is as before. -/
theorem State.memWrites_other (s t : State) (a q : Nat) (bs : List Byte) (h : s.memWrites a bs = .ok t)
    (hq : ∀ k < bs.length, s.resolve (a + k) ≠ .ok q) : t.byteAt q = s.byteAt q := by
  induction bs generalizing s a with
  | nil =>
    have : s = t := by simpa [State.memWrites] using h
    rw [this]
  | cons b bs ih =>
    rw [State.memWrites_cons] at h
    cases hr : s.resolve a with
    | error f => simp [hr] at h
    | ok p =>
      simp only [hr] at h
      have hne : q ≠ p := fun e => hq 0 (by simp) (by simpa [e] using hr)
      rw [ih (s.setByte p b) (a + 1) h fun k hk e => hq (k + 1) (by simpa using hk) (by
        rw [← e]; simp only [State.resolve_setByte]; congr 1; omega), State.byteAt_setByte_other _ _ _ _ hne]

/-- What memory holds after `memWrites`: byte `k` of the list stands at the byte that its address uses. -/
theorem State.memWrites_same (s t : State) (a k p : Nat) (bs : List Byte) (h : s.memWrites a bs = .ok t)
    (hl : bs.length ≤ memSize) (hk : k < bs.length) (hp : s.resolve (a + k) = .ok p) : t.byteAt p = bs[k] := by
  induction bs generalizing s a k with
  | nil => simp at hk
  | cons b bs ih =>
    rw [State.memWrites_cons] at h
    cases hr : s.resolve a with
    | error f => simp [hr] at h
    | ok q =>
      simp only [hr] at h
      simp only [List.length_cons] at hl hk
      cases k with
      | zero =>
        simp only [Nat.add_zero] at hp
        have hpq : p = q := by simpa [hp] using hr
        subst hpq
        rw [State.memWrites_other _ t (a + 1) p bs h fun j hj e => by
          simp only [State.resolve_setByte] at e
          have := s.resolve_inj a 0 (j + 1) p (by simp [memSize]) (by omega) hp (by rw [← e]; congr 1; omega)
          omega]
        simp
      | succ k =>
        have := ih (s.setByte q b) (a + 1) k h (by omega) (by omega)
          (by simp only [State.resolve_setByte]; rw [← hp]; congr 1; omega)
        simpa using this

theorem State.memWrites_succeeds (s : State) (a : Nat) (bs : List Byte)
    (h : ∀ k < bs.length, ∃ p, s.resolve (a + k) = .ok p) : ∃ t, s.memWrites a bs = .ok t := by
  induction bs generalizing s a with
  | nil => exact ⟨s, rfl⟩
  | cons b bs ih =>
    obtain ⟨p, hp⟩ := h 0 (by simp)
    simp only [Nat.add_zero] at hp
    rw [State.memWrites_cons, hp]
    exact ih (s.setByte p b) (a + 1) fun k hk => by
      obtain ⟨q, hq⟩ := h (k + 1) (by simpa using hk)
      exact ⟨q, by simp only [State.resolve_setByte]; rw [← hq]; congr 1; omega⟩

theorem State.memWrites_faults (s : State) (a k : Nat) (bs : List Byte) (hk : k < bs.length)
    (h : s.resolve (a + k) = .error .addressOutOfRange) : s.memWrites a bs = .error .addressOutOfRange := by
  induction bs generalizing s a k with
  | nil => simp at hk
  | cons b bs ih =>
    rw [State.memWrites_cons]
    cases hr : s.resolve a with
    | error f => simp [(s.resolve_error a f hr).2.2]
    | ok p =>
      cases k with
      | zero => simp [hr] at h
      | succ k =>
        exact ih (s.setByte p b) (a + 1) k (by simpa using hk)
          (by simp only [State.resolve_setByte]; rw [← h]; congr 1; omega)

theorem State.memWrites_error (s : State) (a : Nat) (bs : List Byte) (f : Fault) (h : s.memWrites a bs = .error f) :
    f = .addressOutOfRange ∧ s.cfg.memOob = .fault := by
  induction bs generalizing s a with
  | nil => simp [State.memWrites] at h
  | cons b bs ih =>
    rw [State.memWrites_cons] at h
    cases hr : s.resolve a with
    | error g =>
      simp only [hr, Except.error.injEq] at h
      exact ⟨h ▸ (s.resolve_error _ _ hr).2.2, (s.resolve_error _ _ hr).2.1⟩
    | ok p =>
      simp only [hr] at h
      simpa using ih _ _ h

/-- `memWrites` keeps the canonical form. -/
theorem State.memWrites_canonical (s t : State) (a : Nat) (bs : List Byte) (h : s.memWrites a bs = .ok t)
    (hw : Memory.wf s.cfg.font s.mem) : Memory.wf t.cfg.font t.mem := by
  induction bs generalizing s a with
  | nil =>
    have : s = t := by simpa [State.memWrites] using h
    exact this ▸ hw
  | cons b bs ih =>
    rw [State.memWrites_cons] at h
    cases hr : s.resolve a with
    | error f => simp [hr] at h
    | ok p =>
      simp only [hr] at h
      exact ih (s.setByte p b) (a + 1) h (Memory.wf_memStore _ _ _ _ (s.resolve_lt a p hr) hw)

/-! ## Program load (R262) -/

theorem State.copyBytes_frame (s : State) (a : Nat) (bs : List Byte) :
    s.copyBytes a bs = { s with mem := (s.copyBytes a bs).mem } := by
  induction bs generalizing s a with
  | nil => rfl
  | cons b bs ih =>
    unfold State.copyBytes
    rw [ih]; rfl

theorem State.copyBytes_other (s : State) (a q : Nat) (bs : List Byte) (h : q < a ∨ a + bs.length ≤ q) :
    (s.copyBytes a bs).byteAt q = s.byteAt q := by
  induction bs generalizing s a with
  | nil => rfl
  | cons b bs ih =>
    simp only [List.length_cons] at h
    unfold State.copyBytes
    rw [ih _ _ (by omega), State.byteAt_setByte_other _ _ _ _ (by omega)]

theorem State.copyBytes_same (s : State) (a k : Nat) (bs : List Byte) (hk : k < bs.length) :
    (s.copyBytes a bs).byteAt (a + k) = bs[k] := by
  induction bs generalizing s a k with
  | nil => simp at hk
  | cons b bs ih =>
    unfold State.copyBytes
    cases k with
    | zero => rw [State.copyBytes_other _ _ _ _ (by omega)]; simp
    | succ k =>
      have := ih (s.setByte a b) (a + 1) k (by simpa using hk)
      rw [show a + (k + 1) = a + 1 + k by omega, this]; rfl

theorem State.copyBytes_canonical (s : State) (a : Nat) (bs : List Byte) (ha : a + bs.length ≤ memSize)
    (hw : Memory.wf s.cfg.font s.mem) : Memory.wf s.cfg.font (s.copyBytes a bs).mem := by
  induction bs generalizing s a with
  | nil => exact hw
  | cons b bs ih =>
    simp only [List.length_cons] at ha
    exact ih (s.setByte a b) (a + 1) (by omega) (Memory.wf_memStore _ _ _ _ (by omega) hw)

end Sys2Proof.Machine
end

