-- ==== Sys2Proof/Laws/Display.lean ====
section
/-! SUPPORT. What DRW's loops compute (spec/44_display.md R191, R193): which pixels a sprite toggles, and when it collides. -/

namespace Sys2Proof.Machine

@[simp] theorem fbPixel_blank (row : Fin 32) (col : Fin 64) : fbPixel fbBlank row col = false := by
  simp [fbPixel, fbBlank]

/-- Toggling one pixel changes that pixel and no other. -/
theorem fbPixel_fbToggle (fb : FrameBuffer) (row row' : Fin 32) (col col' : Fin 64) :
    fbPixel (fbToggle fb row col) row' col' = (fbPixel fb row' col' ^^ decide (row' = row ∧ col' = col)) := by
  unfold fbPixel fbToggle
  by_cases hr : row' = row
  · subst hr
    by_cases hc : col' = col
    · subst hc
      simp
    · have : ¬ col'.val = col.val := fun e => hc (Fin.ext e)
      simp [this, hc]
  · have : row.val ≠ row'.val := fun e => hr (Fin.ext e.symm)
    simp [Vector.getElem_set_ne, this, hr]

/-- The step of `drawRow`'s loop. -/
def plotBit (x0 : Nat) (row : Fin 32) (b : Byte) (d : Drawing) (c : Nat) : Drawing :=
  if b.getLsbD (7 - c) then d.plot row (wrapCol (x0 + c)) else d

/-- Some set bit of a sprite row, among the column offsets `cs`, lands on column `col`. -/
def rowCovers (x0 : Nat) (b : Byte) (cs : List Nat) (col : Fin 64) : Prop :=
  ∃ c ∈ cs, b.getLsbD (7 - c) = true ∧ col = wrapCol (x0 + c)

theorem rowCovers_cons (x0 c : Nat) (b : Byte) (cs : List Nat) (col : Fin 64) :
    rowCovers x0 b (c :: cs) col ↔ (b.getLsbD (7 - c) = true ∧ col = wrapCol (x0 + c)) ∨ rowCovers x0 b cs col := by
  simp [rowCovers]

/-- Column offsets below 64 that differ land on different columns. -/
theorem wrapCol_inj (x0 c c' : Nat) (hc : c < 64) (hc' : c' < 64) (h : wrapCol (x0 + c) = wrapCol (x0 + c')) :
    c = c' := by
  have := congrArg Fin.val h
  simp only [wrapCol] at this
  omega

theorem foldl_plotBit (x0 : Nat) (row : Fin 32) (b : Byte) (cs : List Nat) (hlt : ∀ c ∈ cs, c < 64) (hnd : cs.Nodup)
    (d : Drawing) :
    (∀ (row' : Fin 32) (col : Fin 64), fbPixel (cs.foldl (plotBit x0 row b) d).fb row' col = true ↔
      (fbPixel d.fb row' col = true ↔ ¬ (row' = row ∧ rowCovers x0 b cs col))) ∧
    ((cs.foldl (plotBit x0 row b) d).coll = true ↔
      d.coll = true ∨ ∃ col, rowCovers x0 b cs col ∧ fbPixel d.fb row col = true) := by
  induction cs generalizing d with
  | nil => simp [rowCovers]
  | cons c cs ih =>
    obtain ⟨hc, hnd⟩ := List.nodup_cons.mp hnd
    have hlt' : ∀ c ∈ cs, c < 64 := fun e he => hlt e (List.mem_cons_of_mem c he)
    obtain ⟨ihp, ihc⟩ := ih hlt' hnd (plotBit x0 row b d c)
    simp only [List.foldl_cons]
    by_cases hb : b.getLsbD (7 - c) = true
    · have hnot : ¬ rowCovers x0 b cs (wrapCol (x0 + c)) := by
        rintro ⟨e, he, _, h⟩
        exact hc (wrapCol_inj x0 c e (hlt c (by simp)) (hlt' e he) h ▸ he)
      have hpix : ∀ row' col, fbPixel (plotBit x0 row b d c).fb row' col =
          (fbPixel d.fb row' col ^^ decide (row' = row ∧ col = wrapCol (x0 + c))) := by
        intro row' col; simp [plotBit, hb, Drawing.plot, fbPixel_fbToggle]
      have hcoll : (plotBit x0 row b d c).coll = (d.coll || fbPixel d.fb row (wrapCol (x0 + c))) := by
        simp [plotBit, hb, Drawing.plot]
      refine ⟨fun row' col => ?_, ?_⟩
      · rw [ihp, hpix, rowCovers_cons]
        by_cases h : row' = row ∧ col = wrapCol (x0 + c)
        · obtain ⟨hr, rfl⟩ := h
          simp only [hr, hb, hnot, true_and, decide_true, Bool.xor_true, or_false, not_true, not_false_iff]
          cases fbPixel d.fb row (wrapCol (x0 + c)) <;> simp
        · have : ¬ (row' = row ∧ (b.getLsbD (7 - c) = true ∧ col = wrapCol (x0 + c))) := fun e => h ⟨e.1, e.2.2⟩
          simp only [h, decide_false, Bool.xor_false]
          tauto
      · rw [ihc, hcoll]
        simp only [rowCovers_cons, Bool.or_eq_true]
        constructor
        · rintro ((h | h) | ⟨col, h1, h2⟩)
          · exact .inl h
          · exact .inr ⟨_, .inl ⟨hb, rfl⟩, h⟩
          · have hne : col ≠ wrapCol (x0 + c) := fun e => hnot (e ▸ h1)
            exact .inr ⟨col, .inr h1, by simpa [hpix, hne] using h2⟩
        · rintro (h | ⟨col, (⟨_, rfl⟩ | h1), h2⟩)
          · exact .inl (.inl h)
          · exact .inl (.inr h2)
          · have hne : col ≠ wrapCol (x0 + c) := fun e => hnot (e ▸ h1)
            exact .inr ⟨col, h1, by simpa [hpix, hne] using h2⟩
    · have hd : plotBit x0 row b d c = d := by simp [plotBit, hb]
      rw [hd] at ihp ihc ⊢
      have hcov : ∀ col, rowCovers x0 b (c :: cs) col ↔ rowCovers x0 b cs col := by
        intro col; simp [rowCovers_cons, hb]
      simp only [hcov]
      exact ⟨ihp, ihc⟩

/-- One sprite row: the pixels it toggles and whether it hits one that is on. -/
theorem drawRow_spec (x0 : Nat) (row : Fin 32) (b : Byte) (d : Drawing) :
    (∀ (row' : Fin 32) (col : Fin 64), fbPixel (drawRow x0 row b d).fb row' col = true ↔
      (fbPixel d.fb row' col = true ↔ ¬ (row' = row ∧ rowCovers x0 b (List.range 8) col))) ∧
    ((drawRow x0 row b d).coll = true ↔
      d.coll = true ∨ ∃ col, rowCovers x0 b (List.range 8) col ∧ fbPixel d.fb row col = true) :=
  foldl_plotBit x0 row b (List.range 8) (fun c hc => by have := List.mem_range.mp hc; omega) List.nodup_range d

/-- Some set bit of the sprite rows, the first at row offset `r`, lands on the pixel. -/
def rowsCover (x0 y0 r : Nat) (bs : List Byte) (col : Fin 64) (row : Fin 32) : Prop :=
  ∃ (k : Nat) (h : k < bs.length), row = wrapRow (y0 + (r + k)) ∧ rowCovers x0 bs[k] (List.range 8) col

theorem rowsCover_cons (x0 y0 r : Nat) (b : Byte) (bs : List Byte) (col : Fin 64) (row : Fin 32) :
    rowsCover x0 y0 r (b :: bs) col row ↔
      (row = wrapRow (y0 + r) ∧ rowCovers x0 b (List.range 8) col) ∨ rowsCover x0 y0 (r + 1) bs col row := by
  constructor
  · rintro ⟨k, hk, h1, h2⟩
    cases k with
    | zero => exact .inl ⟨h1, h2⟩
    | succ k => exact .inr ⟨k, by simpa using hk, by rw [h1]; congr 1; omega, by simpa using h2⟩
  · rintro (⟨h1, h2⟩ | ⟨k, hk, h1, h2⟩)
    · exact ⟨0, by simp, h1, h2⟩
    · exact ⟨k + 1, by simpa using hk, by rw [h1]; congr 1; omega, by simpa using h2⟩

/-- The sprite's rows: at most 32 of them land on different rows (R193 c), so each pixel is visited at most once. -/
theorem drawRows_spec (x0 y0 r : Nat) (bs : List Byte) (hl : bs.length ≤ 32) (d : Drawing) :
    (∀ (row : Fin 32) (col : Fin 64), fbPixel (drawRows x0 y0 r bs d).fb row col = true ↔
      (fbPixel d.fb row col = true ↔ ¬ rowsCover x0 y0 r bs col row)) ∧
    ((drawRows x0 y0 r bs d).coll = true ↔
      d.coll = true ∨ ∃ col row, rowsCover x0 y0 r bs col row ∧ fbPixel d.fb row col = true) := by
  induction bs generalizing r d with
  | nil => simp [drawRows, rowsCover]
  | cons b bs ih =>
    simp only [List.length_cons] at hl
    obtain ⟨ihp, ihc⟩ := ih (r + 1) (by omega) (drawRow x0 (wrapRow (y0 + r)) b d)
    obtain ⟨rp, rc⟩ := drawRow_spec x0 (wrapRow (y0 + r)) b d
    have hnot : ∀ col, ¬ rowsCover x0 y0 (r + 1) bs col (wrapRow (y0 + r)) := by
      rintro col ⟨k, hk, h, _⟩
      have := congrArg Fin.val h
      simp only [wrapRow] at this
      omega
    simp only [drawRows]
    refine ⟨fun row col => ?_, ?_⟩
    · rw [ihp, rp, rowsCover_cons]
      by_cases h : row = wrapRow (y0 + r)
      · have := hnot col
        subst h
        simp only [true_and]; tauto
      · simp only [h, false_and, false_or, not_false_iff, iff_true]
    · rw [ihc, rc]
      simp only [rowsCover_cons]
      constructor
      · rintro ((h | ⟨col, h1, h2⟩) | ⟨col, row, h1, h2⟩)
        · exact .inl h
        · exact .inr ⟨col, _, .inl ⟨rfl, h1⟩, h2⟩
        · have hne : row ≠ wrapRow (y0 + r) := fun e => hnot col (e ▸ h1)
          exact .inr ⟨col, row, .inr h1, by rw [rp] at h2; simpa [hne] using h2⟩
      · rintro (h | ⟨col, row, (⟨rfl, h1⟩ | h1), h2⟩)
        · exact .inl (.inl h)
        · exact .inl (.inr ⟨col, h1, h2⟩)
        · have hne : row ≠ wrapRow (y0 + r) := fun e => hnot col (e ▸ h1)
          exact .inr ⟨col, row, h1, by rw [rp]; simpa [hne] using h2⟩

/-- A set bit of the sprite lands on the pixel, its corner at column `vx mod 64` and row `vy mod 32`, each pixel wrapping on its
own (R191). -/
def spriteCovers (vx vy : Byte) (sprite : List Byte) (col : Fin 64) (row : Fin 32) : Prop :=
  rowsCover (vx.toNat % 64) (vy.toNat % 32) 0 sprite col row

/-- A drawn sprite toggles exactly the pixels its set bits land on. -/
theorem drawSprite_pixel (fb : FrameBuffer) (vx vy : Byte) (sprite : List Byte) (hl : sprite.length ≤ 32) (row : Fin 32)
    (col : Fin 64) : fbPixel (drawSprite fb vx vy sprite).fb row col = true ↔
      (fbPixel fb row col = true ↔ ¬ spriteCovers vx vy sprite col row) :=
  (drawRows_spec _ _ 0 sprite hl { fb := fb, coll := false }).1 row col

/-- A drawn sprite collides exactly when a set bit lands on a pixel that was on. -/
theorem drawSprite_coll (fb : FrameBuffer) (vx vy : Byte) (sprite : List Byte) (hl : sprite.length ≤ 32) :
    (drawSprite fb vx vy sprite).coll = true ↔
      ∃ col row, spriteCovers vx vy sprite col row ∧ fbPixel fb row col = true := by
  have := (drawRows_spec (vx.toNat % 64) (vy.toNat % 32) 0 sprite hl { fb := fb, coll := false }).2
  simpa [drawSprite, spriteCovers] using this

end Sys2Proof.Machine
end

