-- ==== Sys2Proof/Laws/Exec.lean ====
section
/-! SUPPORT. What the shared operations, an instruction and a step can do, each said once, so that later proofs cite it and unfold
nothing: the frame of every instruction, when it faults, and the cases of a step. -/

namespace Sys2Proof.Machine

/-! ## Small facts of the shared operations -/

@[simp] theorem State.getV_load (s : State) (x r : Reg) (b : Byte) :
    (s.load x b).getV r = if r = x then b else s.getV r := by
  simp [State.load, State.getV_setV]

@[simp] theorem State.getV_loadWithFlag (s : State) (x r : Reg) (b f : Byte) :
    (s.loadWithFlag x b f).getV r = if r = 15#4 then f else if r = x then b else s.getV r := by
  simp [State.loadWithFlag, State.setResultAndFlag, State.getV_setV, flagReg]

@[simp] theorem flagByte_toNat (c : Bool) : (flagByte c).toNat = if c then 1 else 0 := by cases c <;> rfl

theorem State.setVs_frame (s : State) (k : Nat) (bs : List Byte) : s.setVs k bs = { s with v := (s.setVs k bs).v } := by
  induction bs generalizing s k with
  | nil => rfl
  | cons b bs ih =>
    unfold State.setVs
    rw [ih]; rfl

/-- The registers that `setVs` leaves alone. -/
theorem State.getV_setVs_other (s : State) (k : Nat) (bs : List Byte) (r : Reg) (hl : k + bs.length ≤ 16)
    (h : r.toNat < k ∨ k + bs.length ≤ r.toNat) : (s.setVs k bs).getV r = s.getV r := by
  induction bs generalizing s k with
  | nil => rfl
  | cons b bs ih =>
    simp only [List.length_cons] at hl h
    unfold State.setVs
    rw [ih _ _ (by omega) (by omega), State.getV_setV_ne]
    rintro rfl
    simp only [BitVec.toNat_ofNat] at h
    omega

/-- The registers that `setVs` writes. -/
theorem State.getV_setVs_same (s : State) (k j : Nat) (bs : List Byte) (hl : k + bs.length ≤ 16) (hj : j < bs.length)
    (r : Reg) (hr : r.toNat = k + j) : (s.setVs k bs).getV r = bs[j] := by
  induction bs generalizing s k j with
  | nil => simp at hj
  | cons b bs ih =>
    simp only [List.length_cons] at hl hj
    unfold State.setVs
    cases j with
    | zero =>
      rw [State.getV_setVs_other _ _ _ _ (by omega) (by omega)]
      have : r = BitVec.ofNat 4 k := BitVec.eq_of_toNat_eq (by simp only [BitVec.toNat_ofNat]; omega)
      simp [this]
    | succ j => exact ih _ _ j (by omega) (by omega) (by omega)

@[simp] theorem State.firstVs_length (s : State) (x : Reg) : (s.firstVs x).length = x.toNat + 1 := by
  simp [State.firstVs]

theorem State.firstVs_get (s : State) (x : Reg) (k : Nat) (h : k < (s.firstVs x).length) :
    (s.firstVs x)[k] = s.getV (BitVec.ofNat 4 k) := by
  simp [State.firstVs]

/-- Everything `push` can do. -/
theorem State.push_some (s t : State) (a : Word) (h : s.push a = some t) :
    ∃ h : s.sp.val < 16, t = { s with stack := s.stack.set s.sp.val a h, sp := ⟨s.sp.val + 1, by omega⟩ } := by
  unfold State.push at h
  split at h
  · next hs => exact ⟨hs, by simpa using h.symm⟩
  · simp at h

theorem State.push_none (s : State) (a : Word) (h : s.push a = none) : s.sp.val = 16 := by
  unfold State.push at h
  split at h
  · simp at h
  · have := s.sp.isLt; omega

/-- Everything `pop` can do. -/
theorem State.pop_some (s t : State) (a : Word) (h : s.pop = some (a, t)) :
    ∃ h : 0 < s.sp.val, a = s.stack[s.sp.val - 1]'(by omega) ∧ t = { s with sp := ⟨s.sp.val - 1, by omega⟩ } := by
  unfold State.pop at h
  split at h
  · next hs =>
    simp only [Option.some.injEq, Prod.mk.injEq] at h
    exact ⟨hs, h.1.symm, h.2.symm⟩
  · simp at h

theorem State.pop_none (s : State) (h : s.pop = none) : s.sp.val = 0 := by
  unfold State.pop at h
  split at h
  · simp at h
  · omega

/-- Everything `storeAtI` can do. -/
theorem State.storeAtI_ok (s t : State) (bs : List Byte) (h : s.storeAtI bs = .ok t) :
    ∃ u, s.memWrites (s.indexed 0) bs = .ok u ∧ t = u.advance := by
  unfold State.storeAtI at h
  cases hm : s.memWrites (s.indexed 0) bs with
  | error f => simp [hm] at h
  | ok u => exact ⟨u, rfl, by simpa [hm] using h.symm⟩

theorem State.storeAtI_frame (s t : State) (bs : List Byte) (h : s.storeAtI bs = .ok t) :
    t = { s with mem := t.mem, pc := s.pc + 2 } := by
  obtain ⟨u, hu, rfl⟩ := s.storeAtI_ok t bs h
  rw [s.memWrites_frame u _ _ hu]; rfl

theorem finish_next (r : Except Fault State) (t : State) (h : finish r = .next t) : r = .ok t := by
  cases r <;> simp_all [finish]

theorem finish_fault (r : Except Fault State) (f : Fault) (h : finish r = .fault f) : r = .error f := by
  cases r <;> simp_all [finish]

theorem State.keyIndex_error (s : State) (v : Byte) (f : Fault) (h : s.keyIndex v = .error f) :
    f = .keyIndexOutOfRange ∧ s.cfg.keyOob = .fault := by
  unfold State.keyIndex at h
  split at h
  · simp at h
  · split at h
    · next hk => exact ⟨by simpa using h.symm, hk⟩
    · simp at h

theorem State.keyOf_error (s : State) (x : Reg) (f : Fault) (h : s.keyOf x = .error f) :
    f = .keyIndexOutOfRange ∧ s.cfg.keyOob = .fault := by
  unfold State.keyOf at h
  split at h
  · simp at h
  · next g hg => obtain rfl := by simpa using h
                 exact s.keyIndex_error _ _ hg

/-- A usable key index names the key of its low nibble (R206). -/
theorem State.keyOf_usable (s : State) (x : Reg) (k : Fin 16) (hu : s.keyUsable x) (hk : k.val = (s.getV x).toNat % 16) :
    s.keyOf x = .ok s.key[k] := by
  have hi : s.keyIndex (s.getV x) = .ok k := by
    unfold State.keyIndex
    split
    · next h => exact congrArg Except.ok (Fin.ext (by simp only []; omega))
    · next h =>
      rcases hu with hw | hle
      · simp only [hw]; exact congrArg Except.ok (Fin.ext hk.symm)
      · omega
  simp [State.keyOf, hi]

/-- What `accessible` says: each of the n addresses uses some byte of memory. -/
theorem State.accessible_resolves (s : State) (n : Nat) (h : s.accessible n) :
    ∀ k < n, ∃ p, s.resolve (s.indexed 0 + k) = .ok p := by
  intro k hk
  refine s.resolve_ok_of _ ?_
  rcases h with h | h | h
  · exact .inl h
  · omega
  · right; simp only [State.indexed, memSize] at *; omega

theorem State.hitsByte_iff (s : State) (k p : Nat) : s.hitsByte k p ↔ s.resolve (s.indexed 0 + k) = .ok p := by
  simp [State.hitsByte, State.indexed]

/-- `drawsOn`, said of the sprite bytes that DRW reads. -/
theorem State.drawsOn_iff (s : State) (x y : Reg) (n : Nibble) (sprite : List Byte)
    (h : s.memReads (s.indexed 0) n.toNat = .ok sprite) (col : Fin 64) (row : Fin 32) :
    s.drawsOn x y n col row ↔ spriteCovers (s.getV x) (s.getV y) sprite col row := by
  obtain ⟨hl, hc⟩ := s.memReads_ok _ _ _ h
  constructor
  · rintro ⟨r, c, p, hr, hc8, hp, hb, h1, h2⟩
    obtain ⟨q, hq, e⟩ := hc r (by omega)
    rw [State.hitsByte_iff, hq] at hp
    obtain rfl : q = p := by simpa using hp
    exact ⟨r, by omega, Fin.ext (by simp [wrapRow, h2]), c, by simp [hc8], by rw [e]; exact hb,
      Fin.ext (by simp [wrapCol, h1])⟩
  · rintro ⟨r, hr, h2, c, hc8, hb, h1⟩
    obtain ⟨q, hq, e⟩ := hc r hr
    exact ⟨r, c, q, by omega, by simpa using hc8, (s.hitsByte_iff r q).2 hq, by rw [← e]; exact hb, by rw [h1]; rfl,
      by rw [h2]; simp [wrapRow]⟩

/-! ## Frames -/

theorem Unchanged.refl (c : Changes) (s : State) : Unchanged c s s := by constructor <;> simp

/-- A state that differs from another in registers and PC only. -/
theorem Unchanged.ofRegs (c : Changes) (s t : State) (h : t = { s with v := t.v, pc := t.pc })
    (hr : ∀ r : Reg, r ∉ c.regs → t.getV r = s.getV r) : Unchanged c s t := by
  have e : ∀ {α : Type} (f : State → α), f t = f { s with v := t.v, pc := t.pc } := fun f => congrArg f h
  exact {
    regs := hr
    i := fun _ => e State.i
    stack := fun _ => e State.stack
    sp := fun _ => e State.sp
    dt := fun _ => e State.dt
    st := fun _ => e State.st
    fb := fun _ col row => e fun u => u.pixel col row
    dirty := fun _ => e State.dirty
    key := fun _ => e State.key
    mode := fun _ => e State.mode
    waitReg := fun _ => e State.waitReg
    mem := fun _ a => e fun u => u.byteAt a
    rndDraws := fun _ => e State.rndDraws
    events := fun _ => e State.events
    cfg := e State.cfg }

/-- A state that differs from another in memory and PC only. -/
theorem Unchanged.ofMem (s t : State) (h : t = { s with mem := t.mem, pc := t.pc }) :
    Unchanged { mem := true } s t := by
  have e : ∀ {α : Type} (f : State → α), f t = f { s with mem := t.mem, pc := t.pc } := fun f => congrArg f h
  exact {
    regs := fun r _ => e fun u => u.getV r
    i := fun _ => e State.i
    stack := fun _ => e State.stack
    sp := fun _ => e State.sp
    dt := fun _ => e State.dt
    st := fun _ => e State.st
    fb := fun _ col row => e fun u => u.pixel col row
    dirty := fun _ => e State.dirty
    key := fun _ => e State.key
    mode := fun _ => e State.mode
    waitReg := fun _ => e State.waitReg
    mem := fun h => by simp at h
    rndDraws := fun _ => e State.rndDraws
    events := fun _ => e State.events
    cfg := e State.cfg }

/-! ## Every instruction -/

/-- The frame of every instruction: what it changes beside PC is in `changesOf`. -/
theorem exec_frame (i : Instr) (s t : State) (h : exec i s = .next t) : Unchanged (changesOf i) s t := by
  cases i with
  | ret =>
    simp only [exec, execRet] at h
    split at h
    · next a u hp =>
      obtain ⟨h0, -, rfl⟩ := s.pop_some u a hp
      obtain rfl := by simpa using h.symm
      constructor <;> simp [changesOf, State.jumpTo] <;> intros <;> rfl
    · obtain rfl := by simpa using h.symm
      constructor <;> simp [changesOf]
  | call nnn =>
    simp only [exec, execCall] at h
    split at h
    · next u hp =>
      obtain ⟨h0, rfl⟩ := s.push_some u _ hp
      obtain rfl := by simpa using h.symm
      constructor <;> simp [changesOf, State.jumpTo] <;> intros <;> rfl
    · obtain rfl := by simpa using h.symm
      constructor <;> simp [changesOf]
  | drw x y n =>
    simp only [exec, execDrw] at h
    split at h
    · obtain rfl := by simpa using h.symm
      constructor <;> simp +contextual [changesOf, State.getV_setV, flagReg]
    · simp at h
  | skp x =>
    simp only [exec, execSkp] at h
    split at h
    · obtain rfl := by simpa using h.symm
      constructor <;> simp [changesOf]
    · simp at h
  | sknp x =>
    simp only [exec, execSknp] at h
    split at h
    · obtain rfl := by simpa using h.symm
      constructor <;> simp [changesOf]
    · simp at h
  | ldB x =>
    have := s.storeAtI_frame t _ (finish_next _ _ h)
    exact Unchanged.ofMem s t (by rw [this])
  | storeRegs x =>
    have := s.storeAtI_frame t _ (finish_next _ _ h)
    exact Unchanged.ofMem s t (by rw [this])
  | loadRegs x =>
    simp only [exec, execLoadRegs] at h
    split at h
    · next bs hb =>
      obtain rfl := by simpa using h.symm
      refine Unchanged.ofRegs _ s _ (by rw [s.setVs_frame 0 bs]; rfl) fun r hr => ?_
      have hl := (s.memReads_ok _ _ bs hb).1
      have hx : x.toNat < 16 := x.isLt
      simp only [State.getV_advance]
      refine s.getV_setVs_other 0 bs r (by omega) (.inr ?_)
      by_contra hlt
      exact hr (List.mem_map.mpr ⟨r.toNat, List.mem_range.mpr (by omega), by simp⟩)
    · simp at h
  | _ =>
    simp only [exec, execCls, execSys, execJp, execSeImm, execSneImm, execSeReg, execSneReg, execJpV0, execLdImm, execAddImm, execLdReg,
      execOrReg, execAndReg, execXorReg, execAddReg, execSubReg, execShr, execSubn, execShl, execRnd, execLdI, execAddI,
      execLdF, execLdVxDT, execLdVxK, execLdDTVx, execLdSTVx] at h
    obtain rfl := by simpa using h.symm
    constructor <;>
      simp +contextual [changesOf, State.reportUnknown, State.load, State.loadWithFlag, State.setResultAndFlag, State.loadRandom,
        State.getV_setV, flagReg, Event.fatal] <;> intros <;> rfl

/-- No instruction is refused. -/
theorem exec_not_refused (i : Instr) (s : State) (r : Refusal) : exec i s ≠ .refused r := by
  cases i <;>
    simp only [exec, execCls, execRet, execSys, execJp, execCall, execSeImm, execSneImm, execSeReg, execSneReg, execJpV0, execLdImm,
      execAddImm, execLdReg, execOrReg, execAndReg, execXorReg, execAddReg, execSubReg, execShr, execSubn, execShl, execRnd,
      execLdI, execAddI, execLdF, execLdB, execStoreRegs, execLoadRegs, execDrw, execSkp, execSknp, execLdVxDT, execLdVxK,
      execLdDTVx, execLdSTVx, finish] <;>
    first | (split <;> simp) | simp

/-- When an instruction faults: a memory instruction under `MEM_OOB = fault`, a key-skip under `KEY_OOB = fault`. -/
theorem exec_fault (i : Instr) (s : State) (f : Fault) (h : exec i s = .fault f) :
    (f = .addressOutOfRange ∧ s.cfg.memOob = .fault) ∨ (f = .keyIndexOutOfRange ∧ s.cfg.keyOob = .fault) := by
  have hst : ∀ bs, finish (s.storeAtI bs) = .fault f → f = .addressOutOfRange ∧ s.cfg.memOob = .fault := by
    intro bs hb
    have hb := finish_fault _ _ hb
    unfold State.storeAtI at hb
    split at hb
    · simp at hb
    · next g hg => obtain rfl := by simpa using hb
                   exact s.memWrites_error _ _ _ hg
  cases i with
  | ldB x => exact .inl (hst _ h)
  | storeRegs x => exact .inl (hst _ h)
  | loadRegs x =>
    simp only [exec, execLoadRegs] at h
    split at h
    · simp at h
    · next g hg => obtain rfl := by simpa using h
                   exact .inl (s.memReads_error _ _ _ hg)
  | drw x y n =>
    simp only [exec, execDrw] at h
    split at h
    · simp at h
    · next g hg => obtain rfl := by simpa using h
                   exact .inl (s.memReads_error _ _ _ hg)
  | skp x =>
    simp only [exec, execSkp] at h
    split at h
    · simp at h
    · next g hg => obtain rfl := by simpa using h
                   exact .inr (s.keyOf_error x _ hg)
  | sknp x =>
    simp only [exec, execSknp] at h
    split at h
    · simp at h
    · next g hg => obtain rfl := by simpa using h
                   exact .inr (s.keyOf_error x _ hg)
  | ret =>
    simp only [exec, execRet] at h
    split at h <;> simp at h
  | call nnn =>
    simp only [exec, execCall] at h
    split at h <;> simp at h
  | _ =>
    simp [exec, execCls, execSys, execJp, execSeImm, execSneImm, execSeReg, execSneReg, execJpV0, execLdImm, execAddImm, execLdReg,
      execOrReg, execAndReg, execXorReg, execAddReg, execSubReg, execShr, execSubn, execShl, execRnd, execLdI, execAddI,
      execLdF, execLdVxDT, execLdVxK, execLdDTVx, execLdSTVx] at h

/-! ## A step -/

/-- When the fetch succeeds: `MEM_OOB = wrap`, or both bytes are inside memory. -/
theorem State.fetch_succeeds (s : State) (h : s.cfg.memOob = .wrap ∨ s.pc.toNat ≤ 0xFFE) : ∃ w, s.fetch = .ok w := by
  obtain ⟨p, hp⟩ := s.resolve_ok_of s.pc.toNat (h.imp_right fun h => by omega)
  obtain ⟨q, hq⟩ := s.resolve_ok_of (s.pc.toNat + 1) (h.imp_right fun h => by omega)
  exact ⟨_, by simp [State.fetch, State.memRead, hp, hq]; rfl⟩

/-- Under `MEM_OOB = fault` a fetch that succeeds is at most at 0xFFE. -/
theorem State.fetch_inside (s : State) (w : Word) (h : s.fetch = .ok w) (hf : s.cfg.memOob = .fault) :
    s.pc.toNat ≤ 0xFFE := by
  by_contra hlt
  have : s.memRead (s.pc.toNat + 1) = .error .addressOutOfRange := by
    simp [State.memRead, s.resolve_fault _ hf (show 0xFFF < s.pc.toNat + 1 by omega)]
  unfold State.fetch at h
  rw [this] at h
  split at h <;> simp at h

theorem State.fetch_error (s : State) (f : Fault) (h : s.fetch = .error f) :
    f = .addressOutOfRange ∧ s.cfg.memOob = .fault := by
  unfold State.fetch at h
  split at h
  · next g hg => obtain rfl := by simpa using h
                 exact s.memRead_error _ _ hg
  · split at h
    · next g hg => obtain rfl := by simpa using h
                   exact s.memRead_error _ _ hg
    · simp at h

/-- Every case of a step that answers a next state. -/
theorem step_next (s t : State) (h : step s = .next t) :
    (s.mode ≠ .running ∧ t = s) ∨
    (s.mode = .running ∧ ∃ w, s.fetch = .ok w ∧ decodeWord w = none ∧ t = s.reportUnknown w) ∨
    (∃ i, s.runs i ∧ exec i s = .next t) := by
  unfold step cycle at h
  cases hm : s.mode with
  | halted => exact .inl ⟨by simp, by simpa [hm] using h.symm⟩
  | waitingForKey => exact .inl ⟨by simp, by simpa [hm] using h.symm⟩
  | running =>
    simp only [hm] at h
    cases hf : s.fetch with
    | error f => simp [hf] at h
    | ok w =>
      simp only [hf, executeWord] at h
      cases hd : decodeWord w with
      | none => exact .inr (.inl ⟨rfl, w, rfl, hd, by simpa [hd] using h.symm⟩)
      | some i => exact .inr (.inr ⟨i, ⟨hm, w, hf, hd⟩, by simpa [hd] using h⟩)

/-- An invariant of every reset state that every transaction keeps holds of every reachable state. -/
theorem Reachable.invariant (P : State → Prop) (h0 : ∀ cfg, P (State.resetWith cfg))
    (h1 : ∀ a s t, P s → transact a s = .next t → P t) (s : State) (h : Reachable s) : P s := by
  induction h with
  | afterReset cfg => exact h0 cfg
  | afterTransaction a s t _ ht ih => exact h1 a s t ih ht

end Sys2Proof.Machine
end

