-- ==== Sys2Proof/Laws/Words.lean ====
section
/-! SUPPORT. The fields of a word put together by each format (spec/30_encoding.md R91, R92), and the word of its fields. -/

namespace Sys2Proof

theorem nibble_ext (a b : BitVec 4) (h0 : a[0] = b[0]) (h1 : a[1] = b[1]) (h2 : a[2] = b[2]) (h3 : a[3] = b[3]) :
    a = b := by
  ext i hi
  have : i = 0 ∨ i = 1 ∨ i = 2 ∨ i = 3 := by omega
  rcases this with rfl | rfl | rfl | rfl <;> assumption

/-- The sixteen values of a nibble. -/
theorem nibble_cases (h : Nibble) : h = 0x0#4 ∨ h = 0x1#4 ∨ h = 0x2#4 ∨ h = 0x3#4 ∨ h = 0x4#4 ∨ h = 0x5#4 ∨ h = 0x6#4 ∨ h = 0x7#4 ∨
    h = 0x8#4 ∨ h = 0x9#4 ∨ h = 0xA#4 ∨ h = 0xB#4 ∨ h = 0xC#4 ∨ h = 0xD#4 ∨ h = 0xE#4 ∨ h = 0xF#4 := by
  revert h; decide

theorem word_ext (a b : Word) (h : ∀ i, (hi : i < 16) → a[i] = b[i]) : a = b := by
  ext i hi
  exact h i hi

@[simp] theorem opHi_wordNNN (h : Nibble) (a : Imm12) : opHi (wordNNN h a) = h := by
  apply nibble_ext <;> simp [opHi, wordNNN, BitVec.getLsbD_eq_getElem]

@[simp] theorem opHi_wordXKK (h : Nibble) (x : Reg) (k : Byte) : opHi (wordXKK h x k) = h := by
  apply nibble_ext <;> simp [opHi, wordXKK, BitVec.getLsbD_eq_getElem]

@[simp] theorem opHi_wordXYN (h : Nibble) (x y : Reg) (n : Nibble) : opHi (wordXYN h x y n) = h := by
  apply nibble_ext <;> simp [opHi, wordXYN, BitVec.getLsbD_eq_getElem]

@[simp] theorem opX_wordXKK (h : Nibble) (x : Reg) (k : Byte) : opX (wordXKK h x k) = x := by
  apply nibble_ext <;> simp [opX, wordXKK, BitVec.getLsbD_eq_getElem]

@[simp] theorem opX_wordXYN (h : Nibble) (x y : Reg) (n : Nibble) : opX (wordXYN h x y n) = x := by
  apply nibble_ext <;> simp [opX, wordXYN, BitVec.getLsbD_eq_getElem]

@[simp] theorem opY_wordXYN (h : Nibble) (x y : Reg) (n : Nibble) : opY (wordXYN h x y n) = y := by
  apply nibble_ext <;> simp [opY, wordXYN, BitVec.getLsbD_eq_getElem]

@[simp] theorem opN_wordXYN (h : Nibble) (x y : Reg) (n : Nibble) : opN (wordXYN h x y n) = n := by
  apply nibble_ext <;> simp [opN, wordXYN, BitVec.getLsbD_eq_getElem]

@[simp] theorem opKK_wordXKK (h : Nibble) (x : Reg) (k : Byte) : opKK (wordXKK h x k) = k := by
  ext i hi
  have : i = 0 ∨ i = 1 ∨ i = 2 ∨ i = 3 ∨ i = 4 ∨ i = 5 ∨ i = 6 ∨ i = 7 := by omega
  rcases this with rfl | rfl | rfl | rfl | rfl | rfl | rfl | rfl <;> simp [opKK, wordXKK, BitVec.getLsbD_eq_getElem]

@[simp] theorem opNNN_wordNNN (h : Nibble) (a : Imm12) : opNNN (wordNNN h a) = a := by
  ext i hi
  have : i = 0 ∨ i = 1 ∨ i = 2 ∨ i = 3 ∨ i = 4 ∨ i = 5 ∨ i = 6 ∨ i = 7 ∨ i = 8 ∨ i = 9 ∨ i = 10 ∨ i = 11 := by omega
  rcases this with rfl | rfl | rfl | rfl | rfl | rfl | rfl | rfl | rfl | rfl | rfl | rfl <;>
    simp [opNNN, wordNNN, BitVec.getLsbD_eq_getElem]

/-- The sixteen bit positions of a word. -/
theorem sixteen (i : Nat) (h : i < 16) : i = 0 ∨ i = 1 ∨ i = 2 ∨ i = 3 ∨ i = 4 ∨ i = 5 ∨ i = 6 ∨ i = 7 ∨ i = 8 ∨ i = 9 ∨
    i = 10 ∨ i = 11 ∨ i = 12 ∨ i = 13 ∨ i = 14 ∨ i = 15 := by omega

@[simp] theorem wordNNN_fields (w : Word) : wordNNN (opHi w) (opNNN w) = w := by
  refine word_ext _ _ fun i hi => ?_
  rcases sixteen i hi with rfl | rfl | rfl | rfl | rfl | rfl | rfl | rfl | rfl | rfl | rfl | rfl | rfl | rfl | rfl | rfl <;>
    simp [wordNNN, opHi, opNNN, BitVec.getLsbD_eq_getElem]

@[simp] theorem wordXKK_fields (w : Word) : wordXKK (opHi w) (opX w) (opKK w) = w := by
  refine word_ext _ _ fun i hi => ?_
  rcases sixteen i hi with rfl | rfl | rfl | rfl | rfl | rfl | rfl | rfl | rfl | rfl | rfl | rfl | rfl | rfl | rfl | rfl <;>
    simp [wordXKK, opHi, opX, opKK, BitVec.getLsbD_eq_getElem]

@[simp] theorem wordXYN_fields (w : Word) : wordXYN (opHi w) (opX w) (opY w) (opN w) = w := by
  refine word_ext _ _ fun i hi => ?_
  rcases sixteen i hi with rfl | rfl | rfl | rfl | rfl | rfl | rfl | rfl | rfl | rfl | rfl | rfl | rfl | rfl | rfl | rfl <;>
    simp [wordXYN, opHi, opX, opY, opN, BitVec.getLsbD_eq_getElem]

@[simp] theorem wordOfBytes_bytes (w : Word) : wordOfBytes (highByte w) (lowByte w) = w := by
  refine word_ext _ _ fun i hi => ?_
  rcases sixteen i hi with rfl | rfl | rfl | rfl | rfl | rfl | rfl | rfl | rfl | rfl | rfl | rfl | rfl | rfl | rfl | rfl <;>
    simp [wordOfBytes, highByte, lowByte, BitVec.getLsbD_eq_getElem]

/-! ## A masked word (R95): what `w AND mask = match` says of the fields of `w` -/

theorem opHi_and (a b : Word) : opHi (a &&& b) = opHi a &&& opHi b := by simp [opHi, BitVec.extractLsb'_and]

theorem opN_and (a b : Word) : opN (a &&& b) = opN a &&& opN b := by simp [opN, BitVec.extractLsb'_and]

theorem opKK_and (a b : Word) : opKK (a &&& b) = opKK a &&& opKK b := by simp [opKK, BitVec.extractLsb'_and]

theorem nibble_and_ones (a : Nibble) : a &&& 0xF#4 = a := by revert a; decide

theorem byte_and_ones (a : Byte) : a &&& 0xFF#8 = a := by
  rw [show 0xFF#8 = BitVec.allOnes 8 by decide, BitVec.and_allOnes]

theorem opHi_of_mask_hi (w f : Word) (h : w &&& 0xF000#16 = f) : opHi w = opHi f := by
  rw [← h, opHi_and, show opHi 0xF000#16 = 0xF#4 by decide, nibble_and_ones]

theorem fields_of_mask_XY (w f : Word) (h : w &&& 0xF00F#16 = f) : opHi w = opHi f ∧ opN w = opN f := by
  rw [← h, opHi_and, opN_and, show opHi 0xF00F#16 = 0xF#4 by decide, show opN 0xF00F#16 = 0xF#4 by decide,
    nibble_and_ones, nibble_and_ones]
  exact ⟨rfl, rfl⟩

theorem fields_of_mask_X (w f : Word) (h : w &&& 0xF0FF#16 = f) : opHi w = opHi f ∧ opKK w = opKK f := by
  rw [← h, opHi_and, opKK_and, show opHi 0xF0FF#16 = 0xF#4 by decide, show opKK 0xF0FF#16 = 0xFF#8 by decide,
    nibble_and_ones, byte_and_ones]
  exact ⟨rfl, rfl⟩

/-- The word of two bytes as a number (R64). -/
theorem wordOfBytes_toNat (a b : Byte) : (wordOfBytes a b).toNat = 256 * a.toNat + b.toNat := by
  have ha := a.isLt
  have hb := b.isLt
  unfold wordOfBytes
  rw [BitVec.toNat_or, BitVec.toNat_shiftLeft, BitVec.toNat_setWidth, BitVec.toNat_setWidth, Nat.shiftLeft_eq,
    Nat.mod_eq_of_lt (by omega), Nat.mod_eq_of_lt (by omega), Nat.mod_eq_of_lt (by omega),
    show a.toNat * 2 ^ 8 = 2 ^ 8 * a.toNat by omega, ← Nat.two_pow_add_eq_or_of_lt hb]

end Sys2Proof
end

