-- ==== Sys2Proof/Laws/PerInstr.lean ====
section
/-! SUPPORT. Statements about every instruction as syntax, one lemma for each constructor: the encoding of an instruction has the
fixed bits of its row of spec/30_encoding.md R95. -/

namespace Sys2Proof.Laws

/-- The bits of a word that a mask fixes, format by format. -/
theorem mask_wordNNN (h : Nibble) (a : Imm12) : wordNNN h a &&& 0xF000#16 = wordNNN h 0 := by
  refine word_ext _ _ fun i hi => ?_
  rcases sixteen i hi with rfl | rfl | rfl | rfl | rfl | rfl | rfl | rfl | rfl | rfl | rfl | rfl | rfl | rfl | rfl | rfl <;>
    simp [wordNNN, BitVec.getLsbD_eq_getElem]

theorem mask_wordXKK_hi (h : Nibble) (x : Reg) (k : Byte) : wordXKK h x k &&& 0xF000#16 = wordXKK h 0 0 := by
  refine word_ext _ _ fun i hi => ?_
  rcases sixteen i hi with rfl | rfl | rfl | rfl | rfl | rfl | rfl | rfl | rfl | rfl | rfl | rfl | rfl | rfl | rfl | rfl <;>
    simp [wordXKK, BitVec.getLsbD_eq_getElem]

theorem mask_wordXKK (h : Nibble) (x : Reg) (k : Byte) : wordXKK h x k &&& 0xF0FF#16 = wordXKK h 0 k := by
  refine word_ext _ _ fun i hi => ?_
  rcases sixteen i hi with rfl | rfl | rfl | rfl | rfl | rfl | rfl | rfl | rfl | rfl | rfl | rfl | rfl | rfl | rfl | rfl <;>
    simp [wordXKK, BitVec.getLsbD_eq_getElem]

theorem mask_wordXYN_hi (h : Nibble) (x y : Reg) (n : Nibble) : wordXYN h x y n &&& 0xF000#16 = wordXYN h 0 0 0 := by
  refine word_ext _ _ fun i hi => ?_
  rcases sixteen i hi with rfl | rfl | rfl | rfl | rfl | rfl | rfl | rfl | rfl | rfl | rfl | rfl | rfl | rfl | rfl | rfl <;>
    simp [wordXYN, BitVec.getLsbD_eq_getElem]

theorem mask_wordXYN (h : Nibble) (x y : Reg) (n : Nibble) : wordXYN h x y n &&& 0xF00F#16 = wordXYN h 0 0 n := by
  refine word_ext _ _ fun i hi => ?_
  rcases sixteen i hi with rfl | rfl | rfl | rfl | rfl | rfl | rfl | rfl | rfl | rfl | rfl | rfl | rfl | rfl | rfl | rfl <;>
    simp [wordXYN, BitVec.getLsbD_eq_getElem]

namespace EncodeHasFixedBits

/-- R95: `(w AND mask) = match` for the word of the instruction. -/
def Statement (i : Instr) : Prop := encode i &&& i.mask = i.fixedBits

theorem cls : Statement (.cls) := rfl
theorem ret : Statement (.ret) := rfl
theorem sys (nnn : Imm12) : Statement (.sys nnn) := (mask_wordNNN _ _).trans rfl
theorem jp (nnn : Imm12) : Statement (.jp nnn) := (mask_wordNNN _ _).trans rfl
theorem call (nnn : Imm12) : Statement (.call nnn) := (mask_wordNNN _ _).trans rfl
theorem seImm (x : Reg) (kk : Byte) : Statement (.seImm x kk) := (mask_wordXKK_hi _ _ _).trans rfl
theorem sneImm (x : Reg) (kk : Byte) : Statement (.sneImm x kk) := (mask_wordXKK_hi _ _ _).trans rfl
theorem seReg (x y : Reg) : Statement (.seReg x y) := (mask_wordXYN _ _ _ _).trans rfl
theorem ldImm (x : Reg) (kk : Byte) : Statement (.ldImm x kk) := (mask_wordXKK_hi _ _ _).trans rfl
theorem addImm (x : Reg) (kk : Byte) : Statement (.addImm x kk) := (mask_wordXKK_hi _ _ _).trans rfl
theorem ldReg (x y : Reg) : Statement (.ldReg x y) := (mask_wordXYN _ _ _ _).trans rfl
theorem orReg (x y : Reg) : Statement (.orReg x y) := (mask_wordXYN _ _ _ _).trans rfl
theorem andReg (x y : Reg) : Statement (.andReg x y) := (mask_wordXYN _ _ _ _).trans rfl
theorem xorReg (x y : Reg) : Statement (.xorReg x y) := (mask_wordXYN _ _ _ _).trans rfl
theorem addReg (x y : Reg) : Statement (.addReg x y) := (mask_wordXYN _ _ _ _).trans rfl
theorem subReg (x y : Reg) : Statement (.subReg x y) := (mask_wordXYN _ _ _ _).trans rfl
theorem shr (x y : Reg) : Statement (.shr x y) := (mask_wordXYN _ _ _ _).trans rfl
theorem subn (x y : Reg) : Statement (.subn x y) := (mask_wordXYN _ _ _ _).trans rfl
theorem shl (x y : Reg) : Statement (.shl x y) := (mask_wordXYN _ _ _ _).trans rfl
theorem sneReg (x y : Reg) : Statement (.sneReg x y) := (mask_wordXYN _ _ _ _).trans rfl
theorem ldI (nnn : Imm12) : Statement (.ldI nnn) := (mask_wordNNN _ _).trans rfl
theorem jpV0 (nnn : Imm12) : Statement (.jpV0 nnn) := (mask_wordNNN _ _).trans rfl
theorem rnd (x : Reg) (kk : Byte) : Statement (.rnd x kk) := (mask_wordXKK_hi _ _ _).trans rfl
theorem drw (x y : Reg) (n : Nibble) : Statement (.drw x y n) := (mask_wordXYN_hi _ _ _ _).trans rfl
theorem skp (x : Reg) : Statement (.skp x) := (mask_wordXKK _ _ _).trans rfl
theorem sknp (x : Reg) : Statement (.sknp x) := (mask_wordXKK _ _ _).trans rfl
theorem ldVxDT (x : Reg) : Statement (.ldVxDT x) := (mask_wordXKK _ _ _).trans rfl
theorem ldVxK (x : Reg) : Statement (.ldVxK x) := (mask_wordXKK _ _ _).trans rfl
theorem ldDTVx (x : Reg) : Statement (.ldDTVx x) := (mask_wordXKK _ _ _).trans rfl
theorem ldSTVx (x : Reg) : Statement (.ldSTVx x) := (mask_wordXKK _ _ _).trans rfl
theorem addI (x : Reg) : Statement (.addI x) := (mask_wordXKK _ _ _).trans rfl
theorem ldF (x : Reg) : Statement (.ldF x) := (mask_wordXKK _ _ _).trans rfl
theorem ldB (x : Reg) : Statement (.ldB x) := (mask_wordXKK _ _ _).trans rfl
theorem storeRegs (x : Reg) : Statement (.storeRegs x) := (mask_wordXKK _ _ _).trans rfl
theorem loadRegs (x : Reg) : Statement (.loadRegs x) := (mask_wordXKK _ _ _).trans rfl

end EncodeHasFixedBits

end Sys2Proof.Laws
end

