-- ==== Sys2Proof/Tests/Slice0.lean ====
section
/-! SUPPORT. The model's own tests. The expected results are the worked examples and vectors of spec/95_test_vectors.md (T<n>, H<n>),
and the words are written from the encodings of spec/30_encoding.md R95. At the end, one witness for the hypotheses of each statement
that has some, at the boundary values of its clauses. -/

namespace Sys2Proof.Tests

open Sys2Proof.Machine

/-! ## Helpers -/

/-- One step from a state with the given word placed at PC. -/
def runWord (w : Nat) (s : State) : Out := step (s.withFetchWord 16 w)

/-- The outcome is a next state, and what `f` sees of it is `a`. -/
def seen {α : Type} [DecidableEq α] (o : Out) (f : State → α) (a : α) : Bool :=
  match o with
  | .next t => decide (f t = a)
  | .fault _ => false
  | .refused _ => false

/-- The outcome is this model fault. -/
def faults (o : Out) (f : Fault) : Bool :=
  match o with
  | .next _ => false
  | .fault g => decide (g = f)
  | .refused _ => false

/-- The outcome is a next state. -/
def completes (o : Out) : Bool := seen o (fun _ => ()) ()

/-- The state after reset with some registers set. -/
def withV (l : List (Reg × Byte)) : State := l.foldl (fun s p => s.setV p.1 p.2) State.reset

/-- A state with bytes in memory from an address upward. -/
def withBytes (s : State) (a : Nat) (bytes : List Byte) : State := s.copyBytes a bytes

/-- The state after reset under other parameters. -/
def withParams (shift : ShiftSource) (mem : MemOob) (key : KeyOob) : State :=
  State.resetWith { font := defaultFont, shiftSource := shift, memOob := mem, keyOob := key }

/-- The state after reset waiting for a key into a register. -/
def waiting (x : Reg) : State := { State.reset with mode := .waitingForKey, waitReg := x }

/-! ## Well-formedness: a SYS term with the operand of CLS or RET is refused, and is no word's decoding -/

theorem test_wf_refuses_sys_0E0 : (Instr.sys 0x0E0).wf = false ∧ decodeWord (encode (.sys 0x0E0)) = some .cls := by decide
theorem test_wf_refuses_sys_0EE : (Instr.sys 0x0EE).wf = false ∧ decodeWord (encode (.sys 0x0EE)) = some .ret := by decide
theorem test_wf_accepts_sys_neighbours : (Instr.sys 0x0E1).wf = true ∧ (Instr.sys 0x0EF).wf = true ∧ (Instr.sys 0).wf = true := by
  decide

/-! ## Decoding: every constructor, its word written bit by bit from R95 with x = A, y = B, n = 5, kk = 3C, nnn = 9A5 -/

theorem test_decode_control_flow :
    decodeWord 0b0000000011101110#16 = some (.ret) ∧
    decodeWord 0b0000100110100101#16 = some (.sys 0x9A5) ∧
    decodeWord 0b0001100110100101#16 = some (.jp 0x9A5) ∧
    decodeWord 0b0010100110100101#16 = some (.call 0x9A5) ∧
    decodeWord 0b0011101000111100#16 = some (.seImm 0xA 0x3C) ∧
    decodeWord 0b0100101000111100#16 = some (.sneImm 0xA 0x3C) ∧
    decodeWord 0b0101101010110000#16 = some (.seReg 0xA 0xB) ∧
    decodeWord 0b1001101010110000#16 = some (.sneReg 0xA 0xB) ∧
    decodeWord 0b1011100110100101#16 = some (.jpV0 0x9A5) := by decide

theorem test_decode_load_alu :
    decodeWord 0b0110101000111100#16 = some (.ldImm 0xA 0x3C) ∧
    decodeWord 0b0111101000111100#16 = some (.addImm 0xA 0x3C) ∧
    decodeWord 0b1000101010110000#16 = some (.ldReg 0xA 0xB) ∧
    decodeWord 0b1000101010110001#16 = some (.orReg 0xA 0xB) ∧
    decodeWord 0b1000101010110010#16 = some (.andReg 0xA 0xB) ∧
    decodeWord 0b1000101010110011#16 = some (.xorReg 0xA 0xB) ∧
    decodeWord 0b1000101010110100#16 = some (.addReg 0xA 0xB) ∧
    decodeWord 0b1000101010110101#16 = some (.subReg 0xA 0xB) ∧
    decodeWord 0b1000101010110110#16 = some (.shr 0xA 0xB) ∧
    decodeWord 0b1000101010110111#16 = some (.subn 0xA 0xB) ∧
    decodeWord 0b1000101010111110#16 = some (.shl 0xA 0xB) ∧
    decodeWord 0b1100101000111100#16 = some (.rnd 0xA 0x3C) := by decide

theorem test_decode_index_memory :
    decodeWord 0b1010100110100101#16 = some (.ldI 0x9A5) ∧
    decodeWord 0b1111101000011110#16 = some (.addI 0xA) ∧
    decodeWord 0b1111101000101001#16 = some (.ldF 0xA) ∧
    decodeWord 0b1111101000110011#16 = some (.ldB 0xA) ∧
    decodeWord 0b1111101001010101#16 = some (.storeRegs 0xA) ∧
    decodeWord 0b1111101001100101#16 = some (.loadRegs 0xA) := by decide

theorem test_decode_display :
    decodeWord 0b0000000011100000#16 = some (.cls) ∧
    decodeWord 0b1101101010110101#16 = some (.drw 0xA 0xB 5) := by decide

theorem test_decode_keypad_timers :
    decodeWord 0b1110101010011110#16 = some (.skp 0xA) ∧
    decodeWord 0b1110101010100001#16 = some (.sknp 0xA) ∧
    decodeWord 0b1111101000000111#16 = some (.ldVxDT 0xA) ∧
    decodeWord 0b1111101000001010#16 = some (.ldVxK 0xA) ∧
    decodeWord 0b1111101000010101#16 = some (.ldDTVx 0xA) ∧
    decodeWord 0b1111101000011000#16 = some (.ldSTVx 0xA) := by decide

/-- T5 to T13: words with no instruction. -/
theorem test_decode_unknown :
    decodeWord 0x5AB1 = none ∧ decodeWord 0x9ABF = none ∧ decodeWord 0x8AB8 = none ∧ decodeWord 0x8ABF = none ∧
    decodeWord 0xE19F = none ∧ decodeWord 0xE000 = none ∧ decodeWord 0xF100 = none ∧ decodeWord 0xF175 = none ∧
    decodeWord 0xFFFF = none := by decide

/-- R64, R90: bytes in memory order; a single byte is no instruction. -/
theorem test_decode_bytes :
    decode [0x6A, 0x3C, 0xFF] = .ok (.ldImm 0xA 0x3C, [0xFF]) ∧ decode [0x6A] = .error .truncated ∧
    decode [0x5A, 0xB1] = .error (.unknownOpcode 0x5AB1) ∧ decodeTableWord 16 0x6A3C = some (.ldImm 0xA 0x3C) := by decide

/-! ## The step cycle -/

/-- T5, with V[A] = V[B]: reported, advanced, not skipped. -/
theorem test_step_unknown_word : seen (runWord 0x5AB1 (withV [(0xA, 1), (0xB, 1)]))
    (fun t => (t.pc, t.mode, t.events)) (0x202, .running, [.unknownOpcode 0x5AB1 0x200]) = true := by decide
/-- T14, T15. -/
theorem test_step_outside_running :
    seen (step { State.reset with mode := .halted }) id { State.reset with mode := .halted } = true ∧
    seen (step (waiting 3)) id (waiting 3) = true ∧ (waiting 3).stepResult = .noWorkWaiting := by decide
/-- T16, T17: the last PC that can be fetched from, and the one above it. -/
theorem test_step_at_end_of_memory :
    seen (step (withBytes { State.reset with pc := 0xFFE } 0xFFE [0x60, 0x12])) (fun t => (t.getV 0, t.pc)) (0x12, 0x1000) = true ∧
    faults (step { State.reset with pc := 0xFFF }) .addressOutOfRange = true := by decide
/-- T18: an odd PC. -/
theorem test_step_odd_pc : seen (step (withBytes { State.reset with pc := 0x201 } 0x200 [0xFF, 0x60, 0x12, 0xFF]))
    (fun t => (t.getV 0, t.pc)) (0x12, 0x203) = true := by decide
/-- D5: under `MEM_OOB = wrap` each byte address is reduced on its own. -/
theorem test_fetch_wraps : seen (step (withBytes { withParams .vx .wrap .fault with pc := 0xFFF } 0xFFF [0x60] |>.setByte 0 0x12))
    (fun t => (t.getV 0, t.pc)) (0x12, 0x1001) = true := by decide

/-! ## Control transfer -/

theorem test_sys_T3 : seen (runWord 0x00E1 State.reset) (fun t => (t.pc, t.mode, t.events))
    (0x202, .running, [.unknownOpcode 0x00E1 0x200]) = true := by decide
theorem test_jp_T19 : seen (runWord 0x1ABC State.reset) State.pc 0xABC = true := by decide
theorem test_call_T24 : seen (runWord 0x2ABC { State.reset with sp := 15 }) (fun t => (t.pc, t.sp, t.stack[15]))
    (0xABC, 16, 0x202) = true := by decide
theorem test_call_full_T25 : seen (runWord 0x2ABC { State.reset with sp := 16 }) (fun t => (t.pc, t.sp, t.mode, t.events))
    (0x200, 16, .halted, [.stackOverflow]) = true := by decide
theorem test_ret_T26 : seen (runWord 0x00EE { State.reset with sp := 1, stack := State.reset.stack.set 0 0x206, pc := 0x300 })
    (fun t => (t.pc, t.sp)) (0x206, 0) = true := by decide
theorem test_ret_empty_T28 : seen (runWord 0x00EE State.reset) (fun t => (t.pc, t.sp, t.mode, t.events))
    (0x200, 0, .halted, [.stackUnderflow]) = true := by decide
theorem test_seImm_T29_T30 : seen (runWord 0x3142 (withV [(1, 0x42)])) State.pc 0x204 = true ∧
    seen (runWord 0x3143 (withV [(1, 0x42)])) State.pc 0x202 = true := by decide
theorem test_sneImm_T32_T33 : seen (runWord 0x4142 (withV [(1, 0x42)])) State.pc 0x202 = true ∧
    seen (runWord 0x4143 (withV [(1, 0x42)])) State.pc 0x204 = true := by decide
theorem test_seReg_T34_T35 : seen (runWord 0x5120 (withV [(1, 7), (2, 7)])) State.pc 0x204 = true ∧
    seen (runWord 0x5120 (withV [(1, 7), (2, 8)])) State.pc 0x202 = true := by decide
theorem test_sneReg_T37_T38 : seen (runWord 0x9120 (withV [(1, 7), (2, 8)])) State.pc 0x204 = true ∧
    seen (runWord 0x9120 (withV [(1, 7), (2, 7)])) State.pc 0x202 = true := by decide
theorem test_jpV0_T43_T44 : seen (runWord 0xBFFF (withV [(0, 0xFF)])) State.pc 0x10FE = true ∧
    seen (runWord 0xB300 (withV [(0, 4), (3, 0x50)])) State.pc 0x304 = true := by decide

/-! ## Load, arithmetic, logic, random: `(V[x], VF, PC)` -/

theorem test_ldImm_T45 : seen (runWord 0x6A3C State.reset) (fun t => (t.getV 0xA, t.pc)) (0x3C, 0x202) = true := by decide
theorem test_addImm_T48_T50 : seen (runWord 0x7101 (withV [(1, 0xFF)])) (fun t => (t.getV 1, t.getV 15, t.pc)) (0, 0, 0x202) = true ∧
    seen (runWord 0x7F02 (withV [(15, 0xFF)])) (fun t => t.getV 15) 1 = true := by decide
theorem test_ldReg_T51 : seen (runWord 0x8230 (withV [(3, 0x7E)])) (fun t => (t.getV 2, t.getV 3, t.pc)) (0x7E, 0x7E, 0x202) = true := by
  decide
theorem test_orReg_T52 : seen (runWord 0x8011 (withV [(0, 0xF0), (1, 0x0F), (15, 1)])) (fun t => (t.getV 0, t.getV 15, t.pc))
    (0xFF, 1, 0x202) = true := by decide
theorem test_andReg_T53 : seen (runWord 0x8012 (withV [(0, 0xF0), (1, 0x3C), (15, 1)])) (fun t => (t.getV 0, t.getV 15, t.pc))
    (0x30, 1, 0x202) = true := by decide
theorem test_xorReg_T54 : seen (runWord 0x8013 (withV [(0, 0xF0), (1, 0x3C), (15, 1)])) (fun t => (t.getV 0, t.getV 15, t.pc))
    (0xCC, 1, 0x202) = true := by decide
theorem test_addReg_T59_T60 : seen (runWord 0x8014 (withV [(0, 0x80), (1, 0x80)])) (fun t => (t.getV 0, t.getV 15, t.pc))
    (0, 1, 0x202) = true ∧
    seen (runWord 0x8014 (withV [(0, 0xFF)])) (fun t => (t.getV 0, t.getV 15)) (0xFF, 0) = true := by decide
theorem test_addReg_flag_T62_T63 : seen (runWord 0x80F4 (withV [(0, 0x10), (15, 1)])) (fun t => (t.getV 0, t.getV 15)) (0x11, 0) = true ∧
    seen (runWord 0x8F14 (withV [(15, 0xF0), (1, 0x20)])) (fun t => t.getV 15) 1 = true := by decide
theorem test_subReg_T66_T67 : seen (runWord 0x8015 (withV [(0, 3), (1, 5), (15, 1)])) (fun t => (t.getV 0, t.getV 15, t.pc))
    (0xFE, 0, 0x202) = true ∧
    seen (runWord 0x8015 (withV [(0, 7), (1, 7)])) (fun t => (t.getV 0, t.getV 15)) (0, 1) = true := by decide
theorem test_subReg_flag_T71 : seen (runWord 0x8F15 (withV [(15, 5), (1, 3)])) (fun t => t.getV 15) 1 = true := by decide
theorem test_subn_T72_T73 : seen (runWord 0x8017 (withV [(0, 3), (1, 5)])) (fun t => (t.getV 0, t.getV 15, t.pc)) (2, 1, 0x202) = true ∧
    seen (runWord 0x8017 (withV [(0, 5), (1, 3), (15, 1)])) (fun t => (t.getV 0, t.getV 15)) (0xFE, 0) = true := by decide
theorem test_shr_T75_T77 : seen (runWord 0x8206 (withV [(2, 5)])) (fun t => (t.getV 2, t.getV 15, t.pc)) (2, 1, 0x202) = true ∧
    seen (runWord 0x8206 (withV [(2, 0x80), (15, 1)])) (fun t => (t.getV 2, t.getV 15)) (0x40, 0) = true := by decide
theorem test_shr_source_T78_T79 :
    seen (runWord 0x8236 (withV [(2, 0xFF), (3, 2)])) (fun t => (t.getV 2, t.getV 15)) (0x7F, 1) = true ∧
    seen (runWord 0x8236 (((withParams .vy .fault .fault).setV 2 0xFF).setV 3 2)) (fun t => (t.getV 2, t.getV 3, t.getV 15))
      (1, 2, 0) = true := by decide
theorem test_shl_T81_T83 : seen (runWord 0x820E (withV [(2, 0x81)])) (fun t => (t.getV 2, t.getV 15, t.pc)) (2, 1, 0x202) = true ∧
    seen (runWord 0x820E (withV [(2, 0x40), (15, 1)])) (fun t => (t.getV 2, t.getV 15)) (0x80, 0) = true := by decide
theorem test_shl_source_T84 : seen (runWord 0x823E (((withParams .vy .fault .fault).setV 2 1).setV 3 0xC0))
    (fun t => (t.getV 2, t.getV 15)) (0x80, 1) = true := by decide
/-- T86 on the byte the step receives; the step itself draws a free byte, counts it and advances. -/
theorem test_rnd_T86 : (State.reset.loadRandom 0xB7 3 0x0F).getV 3 = 0x07 ∧
    seen (runWord 0xC30F State.reset) (fun t => (t.pc, t.rndDraws)) (0x202, 1) = true := by decide

/-! ## Index register and memory -/

theorem test_ldI_T89 : seen (runWord 0xA123 State.reset) (fun t => (t.i, t.pc)) (0x123, 0x202) = true := by decide
theorem test_addI_T92_T94 : seen (runWord 0xF21E { withV [(2, 1)] with i := 0xFFF }) (fun t => (t.i, t.getV 15, t.pc))
    (0x1000, 0, 0x202) = true ∧
    seen (runWord 0xF21E { withV [(2, 0xFF)] with i := 0xFF80 }) State.i 0x7F = true := by decide
theorem test_ldF_T97_T98 : seen (runWord 0xF029 (withV [(0, 0x0F)])) (fun t => (t.i, t.pc)) (0x4B, 0x202) = true ∧
    seen (runWord 0xF029 (withV [(0, 0x1A)])) State.i 0x32 = true := by decide
theorem test_ldB_T105 : seen (runWord 0xF533 { withV [(5, 0xFF)] with i := 0xFFD })
    (fun t => (t.byteAt 0xFFD, t.byteAt 0xFFE, t.byteAt 0xFFF, t.i, t.pc)) (2, 5, 5, 0xFFD, 0x202) = true := by decide
theorem test_ldB_T106 : faults (runWord 0xF533 { withV [(5, 0xFF)] with i := 0xFFE }) .addressOutOfRange = true := by decide
theorem test_storeRegs_T107 : seen (runWord 0xF255 { withV [(0, 0x11), (1, 0x22), (2, 0x33), (3, 0x44)] with i := 0x400 })
    (fun t => (t.byteAt 0x400, t.byteAt 0x401, t.byteAt 0x402, t.byteAt 0x403, t.i, t.pc)) (0x11, 0x22, 0x33, 0, 0x400, 0x202) = true := by
  decide
theorem test_storeRegs_T111 : faults (runWord 0xFF55 { State.reset with i := 0xFF1 }) .addressOutOfRange = true := by decide
theorem test_loadRegs_T113 : seen (runWord 0xF265 { withBytes State.reset 0x400 [0xDE, 0xAD, 0xBE, 0xEF] with i := 0x400 })
    (fun t => (t.getV 0, t.getV 1, t.getV 2, t.getV 3, t.i, t.pc)) (0xDE, 0xAD, 0xBE, 0, 0x400, 0x202) = true := by decide
theorem test_loadRegs_T114 : seen (runWord 0xF465 State.reset) (fun t => (t.getV 0, t.getV 1, t.getV 3, t.getV 4))
    (0xF0, 0x90, 0x90, 0xF0) = true := by decide

/-! ## Display -/

theorem test_cls_T118 : seen (runWord 0x00E0 { State.reset with fb := fbToggle (fbToggle fbBlank 0 0) 31 63, dirty := false })
    (fun t => (t.fb, t.dirty, t.pc)) (fbBlank, true, 0x202) = true := by decide
/-- T121, the source's wraparound example: the second column lands in column 0. -/
theorem test_drw_T121 : seen (runWord 0xD011 { withBytes (withV [(0, 63)]) 0x300 [0xC0] with i := 0x300, dirty := false })
    (fun t => (t.fb, t.getV 15, t.dirty, t.pc)) (fbToggle (fbToggle fbBlank 0 63) 0 0, 0, true, 0x202) = true := by decide
/-- T127: partial overlap. -/
theorem test_drw_T127 : seen (runWord 0xD011 { withBytes State.reset 0x300 [0xF0] with
      i := 0x300, fb := fbToggle (fbToggle fbBlank 0 3) 0 4 })
    (fun t => (t.pixel 0 0, t.pixel 2 0, t.pixel 3 0, t.pixel 4 0, t.getV 15)) (true, true, false, true, 1) = true := by decide

/-! ## Keypad and timers -/

theorem test_skp_T140 : seen (runWord 0xE19E { withV [(1, 0x0F)] with key := State.reset.key.set 15 true }) State.pc 0x204 = true ∧
    seen (runWord 0xE19E (withV [(1, 5)])) State.pc 0x202 = true := by decide
theorem test_skp_T141 : faults (runWord 0xE19E (withV [(1, 0x10)])) .keyIndexOutOfRange = true := by decide
theorem test_sknp_T138_T139 : seen (runWord 0xE1A1 { withV [(1, 5)] with key := State.reset.key.set 5 true }) State.pc 0x202 = true ∧
    seen (runWord 0xE1A1 (withV [(1, 5)])) State.pc 0x204 = true := by decide
theorem test_sknp_T142 : faults (runWord 0xE1A1 { withV [(1, 0xF5)] with key := State.reset.key.set 5 true }) .keyIndexOutOfRange = true ∧
    seen (runWord 0xE1A1 { (withParams .vx .fault .lowNibble).setV 1 0xF5 with key := State.reset.key.set 5 true })
      State.pc 0x202 = true := by decide
theorem test_ldVxDT_T143 : seen (runWord 0xF307 { State.reset with dt := 0x2A }) (fun t => (t.getV 3, t.pc)) (0x2A, 0x202) = true := by
  decide
theorem test_ldVxK_T150 : seen (runWord 0xF80A { State.reset with key := State.reset.key.set 3 true })
    (fun t => (t.mode, t.waitReg, t.pc)) (.waitingForKey, 8, 0x200) = true := by decide
theorem test_ldDTVx_T145 : seen (runWord 0xF315 (withV [(3, 9)])) (fun t => (t.dt, t.st, t.pc)) (9, 0, 0x202) = true := by decide
theorem test_ldSTVx_T147 : seen (runWord 0xF318 (withV [(3, 0xFF)])) (fun t => (t.st, t.dt, t.soundActive, t.pc))
    (0xFF, 0, true, 0x202) = true := by decide

/-! ## The other transactions -/

/-- H2: both timers fall, ST stops at 0. -/
theorem test_ticks_H2 : ((Nat.iterate State.tickTimers 3 { State.reset with dt := 5, st := 2 }).dt,
    (Nat.iterate State.tickTimers 3 { State.reset with dt := 5, st := 2 }).st) = (2, 0) := by decide
/-- H10, H11, H12. -/
theorem test_setKey_H10 : State.reset.setKey 16 true = { State.reset with events := [.invalidKeyIndex 16] } := by decide
theorem test_setKey_H11 : (waiting 3).setKey 7 true =
    { withV [(3, 7)] with key := State.reset.key.set 7 true, pc := 0x202, waitReg := 3 } := by decide
theorem test_setKey_H12 : ({ waiting 3 with key := State.reset.key.set 7 true }).setKey 7 false = waiting 3 := by decide
/-- H16, H20: the bytes past the image keep their values, and PC is not reset. -/
theorem test_load_H20 : ((withBytes { State.reset with pc := 0x20A } 0x200 [0x11, 0x22, 0x33]).loadProgram [0xAA, 0xBB]).mem =
    [(0x200, 0xAA), (0x201, 0xBB), (0x202, 0x33)] ∧ response (.loadProgram [0x60, 0x12, 0xAB]) State.reset = .count 3 := by decide
/-- H21: reset leaves HALTED, erases the program and rewrites the glyphs. -/
theorem test_reset_H21 : (withBytes { State.reset with mode := .halted, sp := 16, dt := 9 } 0x003 [0]).resetTransaction = State.reset ∧
    State.reset.byteAt 3 = 0x90 := by decide
theorem test_clearDirty_H22 : (State.reset.dirty, State.reset.clearDirty.dirty) = (true, false) := by decide

/-! ## Memory: the canonical form -/

theorem test_store_of_reset_contents_is_not_listed :
    ((State.reset.setByte 0x300 7).setByte 0x300 0).mem = [] ∧ (State.reset.setByte 0 0xF0).mem = [] ∧
    ((State.reset.setByte 0x300 7).setByte 0x2FF 8).mem = [(0x2FF, 8), (0x300, 7)] := by decide

/-! ## Witnesses: states and operands that meet the hypotheses of each statement, its clauses at their boundary values -/

/-- DecodeOfEncodeIsTheInstruction, DecodeReadsTwoBytesHighFirst. -/
theorem witness_wf : (Instr.drw 0xF 0xF 0xF).wf = true ∧ (Instr.sys 0xFFF).wf = true ∧ (Instr.sys 0x0ED).wf = true := by decide
/-- DecodedWordIsItsEncoding, and the first clause of DecodeFollowsMaskAndMatch. -/
theorem witness_decoded : decodeWord 0xDFFF = some (.drw 0xF 0xF 0xF) ∧ decodeWord 0x0000 = some (.sys 0) := by decide
/-- DecodeFollowsMaskAndMatch, second clause, for SYS beside CLS and RET. -/
theorem witness_mask : (Instr.sys 1).wf = true ∧ 0x00E1#16 &&& (Instr.sys 1).mask = (Instr.sys 1).fixedBits ∧
    0x00E1#16 ≠ 0x00E0#16 ∧ 0x00E1#16 ≠ 0x00EE#16 := by decide
/-- UnknownWordsAreTheListedSpaces: a word of each space. -/
theorem witness_unknown : [0x5FFF, 0x9001, 0x800D, 0x800F, 0xE0A0, 0xFF66].map decodeWord = List.replicate 6 none := by decide

/-- StepRunsTheDecodedInstruction, at the last PC that can be fetched from. -/
theorem witness_step_runs :
    let s := withBytes { State.reset with pc := 0xFFE } 0xFFE [0x60, 0x12]
    s.mode = .running ∧ (Instr.ldImm 0 0x12).wf = true ∧
    s.memRead s.pc.toNat = .ok (highByte (encode (.ldImm 0 0x12))) ∧
    s.memRead (s.pc.toNat + 1) = .ok (lowByte (encode (.ldImm 0 0x12))) := by decide
/-- StepsOutsideRunningDoNothing, both modes. -/
theorem witness_outside_running : (waiting 3).mode ≠ .running ∧ { State.reset with mode := .halted }.mode ≠ .running := by decide
/-- UnknownWordIsReportedAndSkipped. -/
theorem witness_unknown_word :
    let s := withBytes State.reset 0x200 [0x5A, 0xB1]
    s.mode = .running ∧ s.fetch = .ok 0x5AB1 ∧ decodeWord 0x5AB1 = none := by decide
/-- FetchIsBigEndianAtAnyParity: the clauses at PC = 0xFFE, and at 0xFFFF under `MEM_OOB = wrap`. -/
theorem witness_fetch : { State.reset with pc := 0xFFE }.pc.toNat ≤ 0xFFE ∧
    { withParams .vx .wrap .fault with pc := 0xFFFF }.cfg.memOob = .wrap := by decide
/-- FetchOutsideMemoryFaults, at the first such PC. -/
theorem witness_fetch_outside :
    let s := { State.reset with pc := 0xFFF }
    s.mode = .running ∧ s.cfg.memOob = .fault ∧ 0xFFE < s.pc.toNat := by decide
/-- StepStopsOnlyAsTheParametersSay: a step with each of the two faults, and a state with neither parameter at `fault`. -/
theorem witness_stops : faults (step { State.reset with pc := 0xFFF }) .addressOutOfRange = true ∧
    faults (runWord 0xE09E (withV [(0, 16)])) .keyIndexOutOfRange = true ∧
    (withParams .vx .wrap .lowNibble).cfg.memOob = .wrap ∧ (withParams .vx .wrap .lowNibble).cfg.keyOob = .lowNibble := by decide

/-- CallPushesTheReturnAddress at SP = 15 and ReturnPopsTheReturnAddress at SP = 1 and 16. -/
theorem witness_stack_room : { State.reset with sp := 15 }.sp.val < 16 ∧ 0 < { State.reset with sp := 1 }.sp.val ∧
    0 < { State.reset with sp := 16 }.sp.val := by decide
/-- StackConditionsHalt: its two clauses. -/
theorem witness_stack_conditions : { State.reset with sp := 16 }.sp.val = 16 ∧ State.reset.sp.val = 0 := by decide
/-- CallThenReturnComesBack, at SP = 15. -/
theorem witness_call_return : ∃ t : State, { State.reset with sp := 15 }.sp.val < 16 ∧
    exec (.call 0x300) { State.reset with sp := 15 } = .next t := ⟨_, by decide, rfl⟩

/-- The clauses of the flag writers for x other than 15, and of RND for kk = 0. -/
theorem witness_not_flag : (14 : Reg) ≠ 15#4 ∧ (0 : Byte) = 0 := by decide
/-- ShiftsMoveOneBitAndReportIt, both sources. -/
theorem witness_shift :
    (match (withV [(2, 0x81)]).cfg.shiftSource with
      | .vx => ((withV [(2, 0x81)]).getV 2).toNat | .vy => ((withV [(2, 0x81)]).getV 3).toNat) = 0x81 ∧
    (match ((withParams .vy .fault .fault).setV 3 0x81).cfg.shiftSource with
      | .vx => (((withParams .vy .fault .fault).setV 3 0x81).getV 2).toNat
      | .vy => (((withParams .vy .fault .fault).setV 3 0x81).getV 3).toNat) = 0x81 := by decide

/-- DecimalDigitsAreStoredAtI at the last I; its three bytes are used. -/
theorem witness_decimal :
    let s := { State.reset with i := 0xFFD }
    s.accessible 3 ∧ s.hitsByte 0 0xFFD ∧ s.hitsByte 1 0xFFE ∧ s.hitsByte 2 0xFFF ∧ (∀ k < 3, ¬ s.hitsByte k 0xFFC) := by
  refine ⟨.inr (.inr (by decide)), rfl, rfl, rfl, fun k hk => ?_⟩
  match k, hk with
  | 0, _ => simp [State.hitsByte, State.resolve, State.indexed]
  | 1, _ => simp [State.hitsByte, State.resolve, State.indexed]
  | 2, _ => simp [State.hitsByte, State.resolve, State.indexed]
/-- RegistersAreStoredAtI and RegistersAreLoadedFromI for x = 15 at the last I, and across the end of memory under
`MEM_OOB = wrap`. -/
theorem witness_registers : { State.reset with i := 0xFF0 }.accessible 16 ∧ { State.reset with i := 0xFF0 }.hitsByte 15 0xFFF ∧
    { withParams .vx .wrap .fault with i := 0xFFF8 }.accessible 16 ∧
    { withParams .vx .wrap .fault with i := 0xFFF8 }.hitsByte 8 0 :=
  ⟨.inr (.inr (by decide)), rfl, .inl rfl, rfl⟩
/-- StoredRegistersLoadBack, at x = 15. -/
theorem witness_store_load : ∃ t r : State, exec (.storeRegs 15) { State.reset with i := 0xFF0 } = .next t ∧
    exec (.loadRegs 15) t = .next r := ⟨_, _, rfl, rfl⟩
/-- DataAccessOutsideMemoryFaults: each clause at its first address. -/
theorem witness_data_outside : State.reset.cfg.memOob = .fault ∧ 0xFFF < { State.reset with i := 0xFFE }.i.toNat + 2 ∧
    0xFFF < { State.reset with i := 0xFF1 }.i.toNat + (15 : Reg).toNat ∧
    0xFFF < { State.reset with i := 0x1000 }.i.toNat + (0 : Reg).toNat ∧ (1 : Nibble) ≠ 0 ∧
    0xFFF < { State.reset with i := 0x1000 }.i.toNat + (1 : Nibble).toNat - 1 := by decide

/-- DrawTogglesTheSpritePixels: a row at the last byte of memory, no row anywhere, and a pixel that is drawn on. -/
theorem witness_draw :
    { State.reset with i := 0xFFF }.accessible (1 : Nibble).toNat ∧ { State.reset with i := 0xFFFF }.accessible (0 : Nibble).toNat ∧
    { withBytes (withV [(0, 63)]) 0xFFF [0xC0] with i := 0xFFF }.drawsOn 0 1 1 0 0 :=
  ⟨.inr (.inr (by decide)), .inr (.inl rfl), 0, 1, 0xFFF, by decide, by decide, rfl, by decide, by decide, by decide⟩
/-- DrawingTwiceRestoresTheDisplay. -/
theorem witness_draw_twice : ∃ t r : State, exec (.drw 0 1 5) State.reset = .next t ∧ t.getV 0 = State.reset.getV 0 ∧
    t.getV 1 = State.reset.getV 1 ∧ t.mem = State.reset.mem ∧ t.i = State.reset.i ∧ t.cfg = State.reset.cfg ∧
    exec (.drw 0 1 5) t = .next r := ⟨_, _, rfl, rfl, rfl, rfl, rfl, rfl, rfl⟩

/-- KeySkipsTestTheNamedKey: the last index, and a larger value under `KEY_OOB = low_nibble`. -/
theorem witness_key_usable : (withV [(1, 15)]).keyUsable 1 ∧ (15 : Fin 16).val = ((withV [(1, 15)]).getV 1).toNat % 16 ∧
    ((withParams .vx .fault .lowNibble).setV 1 0xF5).keyUsable 1 ∧
    (5 : Fin 16).val = (((withParams .vx .fault .lowNibble).setV 1 0xF5).getV 1).toNat % 16 :=
  ⟨.inr (by decide), by decide, .inl rfl, by decide⟩
/-- UnusableKeyIndexFaults, at the first such index. -/
theorem witness_key_unusable : (withV [(1, 16)]).cfg.keyOob = .fault ∧ 15 < ((withV [(1, 16)]).getV 1).toNat := by decide
/-- KeyWaitRoundTrip, with one step in the wait and the highest key. -/
theorem witness_key_wait : ∃ t u : State, 15 ≤ 15 ∧ exec (.ldVxK 3) State.reset = .next t ∧
    Host.Core.run core 1 (t.setKey 2 false).tickTimers = .next u := ⟨_, _, Nat.le_refl 15, rfl, rfl⟩

/-- SetKeyLatchesAndEndsAWait: index 16; index 15 with a press and a release, waiting and running. -/
theorem witness_set_key : 15 < 16 ∧ 15 ≤ 15 ∧ (waiting 3).mode = .waitingForKey ∧
    ¬ ((waiting 3).mode = .waitingForKey ∧ false = true) ∧ ¬ (State.reset.mode = .waitingForKey ∧ true = true) := by decide
/-- LoadProgramCopiesTheImage: an image of no bytes, of exactly 3584, and of one more. -/
theorem witness_load : (∃ t, transact (.loadProgram []) State.reset = .next t) ∧
    (∃ t, transact (.loadProgram (List.replicate 3584 1)) State.reset = .next t) ∧
    (List.replicate 3584 (1 : Byte)).length ≤ 3584 ∧
    (∃ t, transact (.loadProgram (List.replicate 3585 1)) State.reset = .next t) ∧
    3584 < (List.replicate 3585 (1 : Byte)).length :=
  ⟨⟨_, rfl⟩, ⟨_, rfl⟩, by rw [List.length_replicate], ⟨_, rfl⟩, by rw [List.length_replicate]; decide⟩
/-- ResetGivesTheResetValues, and the first clause of ModeTransitionsAreTheTable: a reset from HALTED. -/
theorem witness_reset : ∃ t, transact .reset { State.reset with mode := .halted } = .next t := ⟨_, rfl⟩

/-- StepKeepsMemoryCanonical: canonical memory that lists something, and a step that stores. -/
theorem witness_canonical : (withBytes State.reset 0x200 [0xF0, 0x55]).Canonical ∧
    completes (step (withBytes State.reset 0x200 [0xF0, 0x55])) = true :=
  ⟨by unfold State.Canonical; decide, by decide⟩
/-- EveryTransactionKeepsTheInvariant: with a live stack entry, both bounds reached, and a transaction. -/
theorem witness_invariant :
    let s := { State.reset with pc := 0x10FE, sp := 1, stack := State.reset.stack.set 0 0x1000 }
    s.Inv ∧ transact .tickTimers s = .next s.tickTimers := by
  refine ⟨⟨by unfold State.Canonical; decide, fun _ => ⟨by decide, by decide, ?_⟩⟩, rfl⟩
  intro k hk
  obtain rfl : k = 0 := Fin.ext (by have : k.val < 1 := hk; omega)
  decide
/-- ReachableStatesMeetTheInvariant: a state after a transaction. -/
theorem witness_reachable : Reachable State.reset.tickTimers :=
  .afterTransaction .tickTimers State.reset _ (.afterReset defaultConfig) rfl
/-- RunsStopOnlyUnderAFaultParameter. -/
theorem witness_total : (withParams .vx .wrap .lowNibble).total := ⟨rfl, rfl⟩
/-- The statements about every step and every transaction: a step and a run that complete, one for each clause of a change. -/
theorem witness_step_changes :
    seen (runWord 0xF315 (withV [(3, 9)])) (fun t => t.dt) 9 = true ∧ seen (runWord 0xF318 (withV [(3, 9)])) (fun t => t.st) 9 = true ∧
    seen (runWord 0x00E0 { State.reset with dirty := false }) (fun t => t.dirty) true = true ∧
    seen (runWord 0xF055 { withV [(0, 7)] with i := 0x300 }) (fun t => t.byteAt 0x300) 7 = true ∧
    seen (runWord 0xA123 State.reset) (fun t => t.i) 0x123 = true ∧
    seen (runWord 0x2300 State.reset) (fun t => (t.stack[0], t.sp)) (0x202, 1) = true ∧
    seen (runWord 0xF50A State.reset) (fun t => t.waitReg) 5 = true := by decide
/-- ConfigurationIsFixed: a run of two steps that completes. -/
theorem witness_run : ∃ t, Host.Core.run core 2 State.reset = .next t := ⟨_, rfl⟩
/-- ModeTransitionsAreTheTable and AtMostOneEventPerTransaction: every row of the table is taken. -/
theorem witness_modes : seen (runWord 0xF30A State.reset) State.mode .waitingForKey = true ∧
    seen (runWord 0x00EE State.reset) State.mode .halted = true ∧
    seen (runWord 0x2200 { State.reset with sp := 16 }) State.mode .halted = true ∧
    seen (transact (.setKey 15 true) (waiting 3)) State.mode .running = true ∧
    seen (transact (.setKey 16 true) (waiting 3)) State.mode .waitingForKey = true ∧
    seen (transact (.setKey 0 true) { State.reset with mode := .halted }) State.mode .halted = true := by decide
/-- StoredCodeIsFetchedNext, with x = 1 and the stored word at the end of memory. -/
theorem witness_stored_code :
    let s := { withV [(0, 0x62), (1, 0xAA)] with pc := 0xFFC, i := 0xFFE }
    s.mode = .running ∧ 1 ≤ (1 : Reg).toNat ∧ s.i = s.pc + 2 ∧ s.pc.toNat + 3 ≤ 0xFFF ∧
    completes (exec (.storeRegs 1) s) = true ∧ s.getV 0 = highByte (encode (.ldImm 2 0xAA)) ∧
    s.getV 1 = lowByte (encode (.ldImm 2 0xAA)) ∧ (Instr.ldImm 2 0xAA).wf = true := by decide
/-- OutputsDoNotInfluenceExecution: two states that differ in all three outputs. -/
theorem witness_outputs :
    SameButOutputs State.reset { State.reset with events := [.stackOverflow], dirty := false, st := 5 } ∧
    completes (step State.reset) = true := ⟨rfl, by decide⟩

end Sys2Proof.Tests
end

section
/-! SUPPORT. What a completed instruction does to PC, MODE, the call stack and memory, each said once (spec/41_control_flow.md,
spec/43_index_memory.md). -/

namespace Sys2Proof.Machine

/-! ## The meanings that can stop or halt: every next state they answer -/

theorem execRet_next (s t : State) (h : execRet s = .next t) :
    (∃ (live : 0 < s.sp.val), t = { s with pc := s.stack[s.sp.val - 1]'(by omega), sp := ⟨s.sp.val - 1, by omega⟩ }) ∨
    t = s.raise .stackUnderflow := by
  unfold execRet at h
  split at h
  · next target u hp =>
    obtain ⟨live, rfl, rfl⟩ := s.pop_some u target hp
    exact .inl ⟨live, (Host.Outcome.next.inj h).symm⟩
  · exact .inr (Host.Outcome.next.inj h).symm

theorem execCall_next (nnn : Imm12) (s t : State) (h : execCall nnn s = .next t) :
    (∃ (room : s.sp.val < 16), t = { s with
      pc := addrOf nnn, stack := s.stack.set s.sp.val (s.pc + 2) room, sp := ⟨s.sp.val + 1, by omega⟩ }) ∨
    t = s.raise .stackOverflow := by
  unfold execCall at h
  split at h
  · next u hp =>
    obtain ⟨room, rfl⟩ := s.push_some u _ hp
    exact .inl ⟨room, (Host.Outcome.next.inj h).symm⟩
  · exact .inr (Host.Outcome.next.inj h).symm

theorem execDrw_next (x y : Reg) (n : Nibble) (s t : State) (h : execDrw x y n s = .next t) :
    ∃ d : Drawing, t = ((s.show d.fb).setV flagReg (flagByte d.coll)).advance := by
  unfold execDrw at h
  split at h
  · exact ⟨_, (Host.Outcome.next.inj h).symm⟩
  · cases h

theorem execLoadRegs_next (x : Reg) (s t : State) (h : execLoadRegs x s = .next t) :
    ∃ bytes : List Byte, t = (s.setVs 0 bytes).advance := by
  unfold execLoadRegs at h
  split at h
  · exact ⟨_, (Host.Outcome.next.inj h).symm⟩
  · cases h

theorem execSkp_next (x : Reg) (s t : State) (h : execSkp x s = .next t) : ∃ c : Bool, t = s.skipIf c := by
  unfold execSkp at h
  split at h
  · exact ⟨_, (Host.Outcome.next.inj h).symm⟩
  · cases h

theorem execSknp_next (x : Reg) (s t : State) (h : execSknp x s = .next t) : ∃ c : Bool, t = s.skipIf c := by
  unfold execSknp at h
  split at h
  · exact ⟨_, (Host.Outcome.next.inj h).symm⟩
  · cases h

/-! ## PC, MODE and the call stack -/

/-- Where PC goes in an instruction that neither calls, returns, halts nor waits (R125, R142, R148). -/
inductive State.NextPc (s : State) : Word → Prop
  | advance : s.NextPc (s.pc + 2)
  | skip : s.NextPc (s.pc + 4)
  | jump (nnn : Imm12) : s.NextPc (addrOf nnn)
  | jumpV0 (nnn : Imm12) : s.NextPc (widen (s.getV 0) + addrOf nnn)

theorem State.NextPc.ofSkipIf (s : State) (c : Bool) : s.NextPc (s.skipIf c).pc := by
  cases c
  · exact .advance
  · exact .skip

/-- How control can pass from a state to the next: PC, MODE, SP and STACK of an instruction that completes. -/
inductive Control (s t : State) : Prop
  /-- PC moves on, and nothing else. -/
  | moves (pc : s.NextPc t.pc) (mode : t.mode = s.mode) (sp : t.sp = s.sp) (stack : t.stack = s.stack)
  /-- A fatal condition or a key wait: PC stays (R203, R222, R223; D3). -/
  | stops (pc : t.pc = s.pc) (mode : t.mode ≠ .running) (sp : t.sp = s.sp) (stack : t.stack = s.stack)
  /-- CALL with room on the stack (R143; D2). -/
  | calls (nnn : Imm12) (room : s.sp.val < 16) (pc : t.pc = addrOf nnn) (mode : t.mode = s.mode)
      (sp : t.sp.val = s.sp.val + 1) (stack : t.stack = s.stack.set s.sp.val (s.pc + 2) room)
  /-- RET with a live entry (R140). -/
  | returns (live : 0 < s.sp.val) (pc : t.pc = s.stack[s.sp.val - 1]) (mode : t.mode = s.mode)
      (sp : t.sp.val = s.sp.val - 1) (stack : t.stack = s.stack)

theorem Control.ofSkipIf (s : State) (c : Bool) : Control s (s.skipIf c) := .moves (.ofSkipIf s c) rfl rfl rfl

/-- The control part of every instruction. -/
theorem exec_control (i : Instr) (s t : State) (h : exec i s = .next t) : Control s t := by
  cases i with
  | ret =>
    rcases execRet_next s t h with ⟨live, rfl⟩ | rfl
    · exact .returns live rfl rfl rfl rfl
    · exact .stops rfl (by simp [Event.fatal]) rfl rfl
  | call nnn =>
    rcases execCall_next nnn s t h with ⟨room, rfl⟩ | rfl
    · exact .calls nnn room rfl rfl rfl rfl
    · exact .stops rfl (by simp [Event.fatal]) rfl rfl
  | jp nnn =>
    obtain rfl := Host.Outcome.next.inj h
    exact .moves (.jump nnn) rfl rfl rfl
  | jpV0 nnn =>
    obtain rfl := Host.Outcome.next.inj h
    exact .moves (.jumpV0 nnn) rfl rfl rfl
  | ldVxK x =>
    obtain rfl := Host.Outcome.next.inj h
    exact .stops rfl (by simp) rfl rfl
  | seImm x kk => obtain rfl := Host.Outcome.next.inj h; exact .ofSkipIf s _
  | sneImm x kk => obtain rfl := Host.Outcome.next.inj h; exact .ofSkipIf s _
  | seReg x y => obtain rfl := Host.Outcome.next.inj h; exact .ofSkipIf s _
  | sneReg x y => obtain rfl := Host.Outcome.next.inj h; exact .ofSkipIf s _
  | skp x => obtain ⟨c, rfl⟩ := execSkp_next x s t h; exact .ofSkipIf s c
  | sknp x => obtain ⟨c, rfl⟩ := execSknp_next x s t h; exact .ofSkipIf s c
  | drw x y n => obtain ⟨d, rfl⟩ := execDrw_next x y n s t h; exact .moves .advance rfl rfl rfl
  | ldB x => rw [s.storeAtI_frame t _ (finish_next _ _ h)]; exact .moves .advance rfl rfl rfl
  | storeRegs x => rw [s.storeAtI_frame t _ (finish_next _ _ h)]; exact .moves .advance rfl rfl rfl
  | loadRegs x =>
    obtain ⟨bytes, rfl⟩ := execLoadRegs_next x s t h
    rw [s.setVs_frame 0 bytes]
    exact .moves .advance rfl rfl rfl
  | _ =>
    obtain rfl := Host.Outcome.next.inj h
    exact .moves .advance rfl rfl rfl

/-! ## Memory -/

/-- Memory after every instruction: as before, or as the stores from I upward leave it. -/
theorem exec_mem (i : Instr) (s t : State) (h : exec i s = .next t) :
    t.mem = s.mem ∨ ∃ bytes u, s.memWrites (s.indexed 0) bytes = .ok u ∧ t.mem = u.mem := by
  have stored : ∀ bytes, finish (s.storeAtI bytes) = .next t →
      ∃ bytes u, s.memWrites (s.indexed 0) bytes = .ok u ∧ t.mem = u.mem := by
    intro bytes hs
    obtain ⟨u, hu, rfl⟩ := s.storeAtI_ok t bytes (finish_next _ _ hs)
    exact ⟨bytes, u, hu, rfl⟩
  cases i with
  | ldB x => exact .inr (stored _ h)
  | storeRegs x => exact .inr (stored _ h)
  | ret => rcases execRet_next s t h with ⟨_, rfl⟩ | rfl <;> exact .inl rfl
  | call nnn => rcases execCall_next nnn s t h with ⟨_, rfl⟩ | rfl <;> exact .inl rfl
  | skp x => obtain ⟨c, rfl⟩ := execSkp_next x s t h; exact .inl rfl
  | sknp x => obtain ⟨c, rfl⟩ := execSknp_next x s t h; exact .inl rfl
  | drw x y n => obtain ⟨d, rfl⟩ := execDrw_next x y n s t h; exact .inl rfl
  | loadRegs x =>
    obtain ⟨bytes, rfl⟩ := execLoadRegs_next x s t h
    rw [s.setVs_frame 0 bytes]
    exact .inl rfl
  | _ => obtain rfl := Host.Outcome.next.inj h; exact .inl rfl

theorem exec_canonical (i : Instr) (s t : State) (hc : s.Canonical) (h : exec i s = .next t) : t.Canonical := by
  unfold State.Canonical at hc ⊢
  rw [(exec_frame i s t h).cfg]
  rcases exec_mem i s t h with e | ⟨bytes, u, hu, e⟩
  · rw [e]; exact hc
  · have hcfg : u.cfg = s.cfg := by rw [s.memWrites_frame u _ _ hu]
    rw [e, ← hcfg]
    exact s.memWrites_canonical u _ bytes hu hc

end Sys2Proof.Machine
end

section
/-! The invariant `State.Inv` (R24, R140): every reset state has it, every transaction keeps it. -/

namespace Sys2Proof.Machine

/-! ## What the invariant reads -/

theorem State.Bounded.congr {s t : State} (hb : s.Bounded) (hpc : t.pc = s.pc) (hmode : t.mode = s.mode)
    (hsp : t.sp = s.sp) (hstack : t.stack = s.stack) : t.Bounded where
  pc := hpc ▸ hb.pc
  waiting := by rw [hpc, hmode]; exact hb.waiting
  live := by rw [hsp, hstack]; exact hb.live

theorem State.Inv.congr {s t : State} (hi : s.Inv) (hmem : t.mem = s.mem) (hcfg : t.cfg = s.cfg) (hpc : t.pc = s.pc)
    (hmode : t.mode = s.mode) (hsp : t.sp = s.sp) (hstack : t.stack = s.stack) : t.Inv := by
  refine ⟨?_, fun hf => (hi.2 (hcfg ▸ hf)).congr hpc hmode hsp hstack⟩
  unfold State.Canonical
  rw [hmem, hcfg]
  exact hi.1

/-! ## Reset -/

theorem State.resetWith_inv (cfg : Config) : (State.resetWith cfg).Inv :=
  ⟨⟨List.Pairwise.nil, by simp [State.resetWith]⟩, fun _ => {
    pc := by simp [State.resetWith]
    waiting := by simp [State.resetWith]
    live := by simp [State.resetWith] }⟩

/-! ## A step -/

theorem addrOf_le (nnn : Imm12) : (addrOf nnn).toNat ≤ 0xFFF := by
  simp only [addrOf, BitVec.toNat_setWidth]
  omega

theorem widen_le (b : Byte) : (widen b).toNat ≤ 0xFF := by
  simp only [widen, BitVec.toNat_setWidth]
  omega

/-- From an instruction inside memory PC goes to 0x10FE at most: the greatest target is JP V0's (R24, R148; D32). -/
theorem State.NextPc.le {s : State} {a : Word} (h : s.NextPc a) (hpc : s.pc.toNat ≤ 0xFFE) : a.toNat ≤ 0x10FE := by
  cases h with
  | advance => bv_omega
  | skip => bv_omega
  | jump nnn => have := addrOf_le nnn; omega
  | jumpV0 nnn =>
    have := addrOf_le nnn
    have := widen_le (s.getV 0)
    simp only [BitVec.toNat_add]
    omega

/-- An instruction fetched inside memory keeps the bounds, however control passes. -/
theorem Control.bounded {s t : State} (h : Control s t) (hrun : s.mode = .running) (hpc : s.pc.toNat ≤ 0xFFE)
    (hb : s.Bounded) : t.Bounded := by
  cases h with
  | moves pc mode sp stack =>
    exact ⟨pc.le hpc, by simp [mode, hrun], by rw [sp, stack]; exact hb.live⟩
  | stops pc mode sp stack =>
    exact ⟨pc ▸ hb.pc, fun _ => pc ▸ hpc, by rw [sp, stack]; exact hb.live⟩
  | calls nnn room pc mode sp stack =>
    refine ⟨?_, by simp [mode, hrun], fun k hk => ?_⟩
    · have := addrOf_le nnn
      rw [pc]; omega
    · have hret : (s.pc + 2).toNat ≤ 0x1000 := by bv_omega
      simp only [stack, Fin.getElem_fin, Vector.getElem_set]
      split
      · exact hret
      · exact hb.live k (by omega)
  | returns live pc mode sp stack =>
    refine ⟨?_, by simp [mode, hrun], fun k hk => ?_⟩
    · have hlive := hb.live ⟨s.sp.val - 1, by omega⟩ (Nat.sub_lt live Nat.one_pos)
      simp only [Fin.getElem_fin] at hlive
      rw [pc]; omega
    · rw [stack]; exact hb.live k (by omega)

/-- Every step keeps the invariant: under `MEM_OOB = fault` only a PC of at most 0xFFE can be fetched from (R63). -/
theorem step_inv (s t : State) (hi : s.Inv) (h : step s = .next t) : t.Inv := by
  rcases step_next s t h with ⟨-, rfl⟩ | ⟨hrun, w, hw, -, rfl⟩ | ⟨i, ⟨hrun, w, hw, -⟩, he⟩
  · exact hi
  · have hc : Control s (s.reportUnknown w) := .moves .advance rfl rfl rfl
    exact ⟨hi.1, fun hf => hc.bounded hrun (s.fetch_inside w hw hf) (hi.2 hf)⟩
  · have hcfg : t.cfg = s.cfg := (exec_frame i s t he).cfg
    refine ⟨exec_canonical i s t hi.1 he, fun hf => ?_⟩
    rw [hcfg] at hf
    exact (exec_control i s t he).bounded hrun (s.fetch_inside w hw hf) (hi.2 hf)

/-! ## The other transactions -/

theorem State.loadProgram_inv (s : State) (bytes : List Byte) (hi : s.Inv) : (s.loadProgram bytes).Inv := by
  have copied : (s.copyBytes 0x200 (bytes.take programMax)).Inv := by
    have hlen : 0x200 + (bytes.take programMax).length ≤ memSize := by
      simp only [List.length_take, programMax, memSize]; omega
    have hcan := s.copyBytes_canonical 0x200 _ hlen hi.1
    rw [s.copyBytes_frame]
    exact ⟨hcan, fun hf => (hi.2 hf).congr rfl rfl rfl rfl⟩
  unfold State.loadProgram
  split
  · exact copied.congr rfl rfl rfl rfl rfl rfl
  · exact copied

/-- The end of a key wait: the PC of a wait is inside memory, so PC + 2 is in its bound (R24, R239). -/
theorem State.resume_inv (s : State) (index : Nat) (hi : s.Inv) (hw : s.mode = .waitingForKey) : (s.resume index).Inv := by
  refine ⟨hi.1, fun hf => ?_⟩
  obtain ⟨-, waiting, live⟩ := hi.2 hf
  have hpc := waiting hw
  have hnext : (s.pc + 2).toNat ≤ 0x10FE := State.NextPc.advance.le hpc
  exact ⟨hnext, by simp [State.resume], live⟩

theorem State.setKey_inv (s : State) (index : Nat) (pressed : Bool) (hi : s.Inv) : (s.setKey index pressed).Inv := by
  unfold State.setKey
  split
  · next hk =>
    have latched : { s with key := s.key.set index pressed (by omega) }.Inv := hi.congr rfl rfl rfl rfl rfl rfl
    split
    · next hw => exact State.resume_inv _ index latched hw.1
    · exact latched
  · exact hi.congr rfl rfl rfl rfl rfl rfl

/-- Every transaction keeps the invariant. -/
theorem transact_inv (a : Transaction) (s t : State) (hi : s.Inv) (h : transact a s = .next t) : t.Inv := by
  cases a with
  | step => exact step_inv s t hi h
  | reset =>
    obtain rfl := Host.Outcome.next.inj h
    exact (State.resetWith_inv s.cfg).congr rfl rfl rfl rfl rfl rfl
  | loadProgram bytes =>
    obtain rfl := Host.Outcome.next.inj h
    exact s.loadProgram_inv bytes hi
  | setKey index pressed =>
    obtain rfl := Host.Outcome.next.inj h
    exact s.setKey_inv index pressed hi
  | _ =>
    obtain rfl := Host.Outcome.next.inj h
    exact hi.congr rfl rfl rfl rfl rfl rfl

/-- Settles O52: the invariant holds after every reset and every transaction keeps it. -/
theorem reachableStatesMeetTheInvariant : Obligations.ReachableStatesMeetTheInvariant :=
  Reachable.invariant State.Inv State.resetWith_inv transact_inv

end Sys2Proof.Machine
end

section
/-! The obligations of the state as a whole (spec/10_state.md): the invariant, the fixed configuration, who writes each part
of the state in a step, and the reset values (R37, R38). -/

namespace Sys2Proof.Machine

/-- Settles O50, transaction by transaction; the fetch gate bounds PC where a step runs an instruction. -/
theorem everyTransactionKeepsTheInvariant : Obligations.EveryTransactionKeepsTheInvariant := transact_inv

/-- Settles O51: reset lists no memory, puts PC at 0x200 and leaves no stack entry live. -/
theorem resetMeetsTheInvariant : Obligations.ResetMeetsTheInvariant :=
  ⟨State.resetWith_inv, State.resetWith_inv defaultConfig⟩

/-! ## The configuration (R37) -/

theorem step_cfg (s t : State) (h : step s = .next t) : t.cfg = s.cfg := by
  rcases step_next s t h with ⟨-, rfl⟩ | ⟨-, w, -, -, rfl⟩ | ⟨i, -, he⟩
  · rfl
  · rfl
  · exact (exec_frame i s t he).cfg

theorem State.loadProgram_cfg (s : State) (bytes : List Byte) : (s.loadProgram bytes).cfg = s.cfg := by
  have copied : (s.copyBytes 0x200 (bytes.take programMax)).cfg = s.cfg := by rw [s.copyBytes_frame]
  unfold State.loadProgram
  split <;> exact copied

theorem State.setKey_cfg (s : State) (index : Nat) (pressed : Bool) : (s.setKey index pressed).cfg = s.cfg := by
  unfold State.setKey
  split
  · split <;> rfl
  · rfl

theorem transact_cfg (a : Transaction) (s t : State) (h : transact a s = .next t) : t.cfg = s.cfg := by
  cases a with
  | step => exact step_cfg s t h
  | loadProgram bytes => obtain rfl := Host.Outcome.next.inj h; exact s.loadProgram_cfg bytes
  | setKey index pressed => obtain rfl := Host.Outcome.next.inj h; exact s.setKey_cfg index pressed
  | _ => obtain rfl := Host.Outcome.next.inj h; rfl

/-- A run that answers a state goes by its first step. -/
theorem run_succ_next (k : Nat) (s t : State) (h : Host.Core.run core (k + 1) s = .next t) :
    ∃ u : State, step s = .next u ∧ Host.Core.run core k u = .next t := by
  simp only [Host.Core.run] at h
  split at h
  · next u hu => exact ⟨u, hu, h⟩
  · cases h
  · cases h

theorem run_cfg (k : Nat) (s t : State) (h : Host.Core.run core k s = .next t) : t.cfg = s.cfg := by
  induction k generalizing s with
  | zero => exact congrArg State.cfg (Host.Outcome.next.inj h).symm
  | succ k ih =>
    obtain ⟨u, hstep, hrun⟩ := run_succ_next k s t h
    exact (ih u hrun).trans (step_cfg s u hstep)

/-- Settles O53: by the cases of a transaction, and by induction on the number of steps. -/
theorem configurationIsFixed : Obligations.ConfigurationIsFixed := ⟨transact_cfg, run_cfg⟩

/-! ## Who writes a part of the state in a step (R21, R25 to R34) -/

/-- An unknown word is reported, and nothing but the event stays of it (R126). -/
theorem State.reportUnknown_frame (s : State) (w : Word) : Unchanged { events := true } s (s.reportUnknown w) := by
  constructor <;> simp [State.reportUnknown, Event.fatal]

/-- A step leaves a part of the state as it was, or runs an instruction whose row of the access tables writes it. `part` names
the part in those rows; a step that runs no instruction puts out at most an event. -/
theorem step_writer (s t : State) (h : step s = .next t) (part : Changes → Bool) (hidle : part { events := true } = false)
    {Same : Prop} (same : ∀ c, Unchanged c s t → part c = false → Same) :
    Same ∨ ∃ i, s.runs i ∧ exec i s = .next t ∧ part (changesOf i) = true := by
  rcases step_next s t h with ⟨-, rfl⟩ | ⟨-, w, -, -, rfl⟩ | ⟨i, hrun, he⟩
  · exact .inl (same _ (.refl _ _) hidle)
  · exact .inl (same _ (s.reportUnknown_frame w) hidle)
  · cases hp : part (changesOf i) with
    | false => exact .inl (same _ (exec_frame i s t he) hp)
    | true => exact .inr ⟨i, hrun, he, hp⟩

theorem changesOf_dt (i : Instr) (h : (changesOf i).dt = true) : ∃ x, i = .ldDTVx x := by
  cases i with
  | ldDTVx x => exact ⟨x, rfl⟩
  | _ => cases h

theorem changesOf_st (i : Instr) (h : (changesOf i).st = true) : ∃ x, i = .ldSTVx x := by
  cases i with
  | ldSTVx x => exact ⟨x, rfl⟩
  | _ => cases h

theorem changesOf_display (i : Instr) (h : ((changesOf i).fb || (changesOf i).dirty) = true) :
    i = .cls ∨ ∃ x y n, i = .drw x y n := by
  cases i with
  | cls => exact .inl rfl
  | drw x y n => exact .inr ⟨x, y, n, rfl⟩
  | _ => cases h

theorem changesOf_mem (i : Instr) (h : (changesOf i).mem = true) : ∃ x, i = .ldB x ∨ i = .storeRegs x := by
  cases i with
  | ldB x => exact ⟨x, .inl rfl⟩
  | storeRegs x => exact ⟨x, .inr rfl⟩
  | _ => cases h

theorem changesOf_i (i : Instr) (h : (changesOf i).i = true) :
    (∃ nnn, i = .ldI nnn) ∨ ∃ x, i = .addI x ∨ i = .ldF x := by
  cases i with
  | ldI nnn => exact .inl ⟨nnn, rfl⟩
  | addI x => exact .inr ⟨x, .inl rfl⟩
  | ldF x => exact .inr ⟨x, .inr rfl⟩
  | _ => cases h

theorem changesOf_stack (i : Instr) (h : (changesOf i).stack = true) : ∃ nnn, i = .call nnn := by
  cases i with
  | call nnn => exact ⟨nnn, rfl⟩
  | _ => cases h

theorem changesOf_sp (i : Instr) (h : (changesOf i).sp = true) : (∃ nnn, i = .call nnn) ∨ i = .ret := by
  cases i with
  | call nnn => exact .inl ⟨nnn, rfl⟩
  | ret => exact .inr rfl
  | _ => cases h

theorem changesOf_waitReg (i : Instr) (h : (changesOf i).waitReg = true) : ∃ x, i = .ldVxK x := by
  cases i with
  | ldVxK x => exact ⟨x, rfl⟩
  | _ => cases h

theorem changesOf_key (i : Instr) : (changesOf i).key = false := by cases i <;> rfl

/-- Settles O54: by the access tables the timer loads alone write DT and ST, and each writes V[x]. -/
theorem onlyTimerLoadsChangeTimersInAStep : Obligations.OnlyTimerLoadsChangeTimersInAStep := by
  intro s t h
  constructor
  · refine (step_writer s t h Changes.dt rfl fun _ frame => frame.dt).imp_right ?_
    rintro ⟨i, hrun, he, hw⟩
    obtain ⟨x, rfl⟩ := changesOf_dt i hw
    obtain rfl := Host.Outcome.next.inj he
    exact ⟨x, hrun, rfl⟩
  · refine (step_writer s t h Changes.st rfl fun _ frame => frame.st).imp_right ?_
    rintro ⟨i, hrun, he, hw⟩
    obtain ⟨x, rfl⟩ := changesOf_st i hw
    obtain rfl := Host.Outcome.next.inj he
    exact ⟨x, hrun, rfl⟩

/-- Settles O55: by the access tables CLS and DRW alone write the display or DIRTY, and both set DIRTY. -/
theorem onlyClearAndDrawChangeTheDisplay : Obligations.OnlyClearAndDrawChangeTheDisplay := by
  intro s t h changed
  have writer := step_writer s t h (fun c => c.fb || c.dirty) rfl
    (Same := (∀ col row, t.pixel col row = s.pixel col row) ∧ t.dirty = s.dirty) fun c frame hc => by
      obtain ⟨hfb, hdirty⟩ := Bool.or_eq_false_iff.mp hc
      exact ⟨frame.fb hfb, frame.dirty hdirty⟩
  rcases writer with ⟨hpixel, hdirty⟩ | ⟨i, hrun, he, hw⟩
  · rcases changed with ⟨col, row, hne⟩ | hne
    · exact absurd (hpixel col row) hne
    · exact absurd hdirty hne
  · rcases changesOf_display i hw with rfl | ⟨x, y, n, rfl⟩
    · obtain rfl := Host.Outcome.next.inj he
      exact ⟨rfl, .inl hrun⟩
    · obtain ⟨d, rfl⟩ := execDrw_next x y n s t he
      exact ⟨rfl, .inr ⟨x, y, n, hrun⟩⟩

/-- Settles O56: each part's writers are read off the access tables. -/
theorem writersOfMemoryIndexStackAndKeys : Obligations.WritersOfMemoryIndexStackAndKeys := by
  intro s t h
  refine ⟨?mem, ?i, ?stack, ?sp, ?waitReg, ?key⟩
  case mem =>
    rintro ⟨a, hne⟩
    obtain ⟨i, hrun, -, hw⟩ := (step_writer s t h Changes.mem rfl fun _ frame => frame.mem).resolve_left fun e => hne (e a)
    obtain ⟨x, rfl | rfl⟩ := changesOf_mem i hw
    · exact ⟨x, .inl hrun⟩
    · exact ⟨x, .inr hrun⟩
  case i =>
    intro hne
    obtain ⟨i, hrun, -, hw⟩ := (step_writer s t h Changes.i rfl fun _ frame => frame.i).resolve_left hne
    obtain ⟨nnn, rfl⟩ | ⟨x, rfl | rfl⟩ := changesOf_i i hw
    · exact .inl ⟨nnn, hrun⟩
    · exact .inr ⟨x, .inl hrun⟩
    · exact .inr ⟨x, .inr hrun⟩
  case stack =>
    intro hne
    obtain ⟨i, hrun, -, hw⟩ := (step_writer s t h Changes.stack rfl fun _ frame => frame.stack).resolve_left hne
    obtain ⟨nnn, rfl⟩ := changesOf_stack i hw
    exact ⟨nnn, hrun⟩
  case sp =>
    intro hne
    obtain ⟨i, hrun, -, hw⟩ := (step_writer s t h Changes.sp rfl fun _ frame => frame.sp).resolve_left hne
    obtain ⟨nnn, rfl⟩ | rfl := changesOf_sp i hw
    · exact .inl ⟨nnn, hrun⟩
    · exact .inr hrun
  case waitReg =>
    intro hne
    obtain ⟨i, hrun, -, hw⟩ := (step_writer s t h Changes.waitReg rfl fun _ frame => frame.waitReg).resolve_left hne
    obtain ⟨x, rfl⟩ := changesOf_waitReg i hw
    exact ⟨x, hrun⟩
  case key =>
    refine (step_writer s t h Changes.key rfl fun _ frame => frame.key).resolve_right ?_
    rintro ⟨i, -, -, hw⟩
    simp [changesOf_key] at hw

/-! ## Reset (R38, R260) -/

/-- After `reset` memory lists nothing, so every byte reads as its reset contents. -/
theorem State.byteAt_resetTransaction (s : State) (a : Nat) :
    s.resetTransaction.byteAt a = unlistedByte s.cfg.font a := rfl

theorem State.getV_resetTransaction (s : State) (r : Reg) : s.resetTransaction.getV r = 0 := by
  simp [State.getV, State.resetTransaction, State.resetWith]

theorem State.pixel_resetTransaction (s : State) (col : Fin 64) (row : Fin 32) :
    s.resetTransaction.pixel col row = false := fbPixel_blank row col

/-- Settles O47: memory, registers and display by their reads, the other elements as `resetWith` writes them. -/
theorem resetGivesTheResetValues : Obligations.ResetGivesTheResetValues := by
  intro s t h
  obtain rfl := Host.Outcome.next.inj h
  have glyph : ∀ (a : Nat) (h : a < 80), s.resetTransaction.byteAt a = s.cfg.font[a] := fun a ha => by
    simp [State.byteAt_resetTransaction, unlistedByte, ha]
  have zero : ∀ a, 80 ≤ a → s.resetTransaction.byteAt a = 0 := fun a ha => by
    simp [State.byteAt_resetTransaction, unlistedByte, Nat.not_lt.mpr ha]
  have stack : ∀ k : Fin 16, s.resetTransaction.stack[k] = 0 := fun k => by
    simp [State.resetTransaction, State.resetWith]
  have key : ∀ k : Fin 16, s.resetTransaction.key[k] = false := fun k => by
    simp [State.resetTransaction, State.resetWith]
  exact ⟨rfl, rfl, glyph, zero, s.getV_resetTransaction, rfl, rfl, stack, rfl, rfl, rfl, s.pixel_resetTransaction, rfl, key,
    rfl, rfl, rfl⟩

end Sys2Proof.Machine
end

section
/-! Nothing that executes reads ST, DIRTY or the events put out (R28, R30, R229): each operation commutes with erasing them. -/

namespace Sys2Proof.Machine

/-- The state with what only the host reads erased. -/
def State.quiet (s : State) : State := { s with events := [], dirty := false, st := 0 }

theorem sameButOutputs_iff (s t : State) : SameButOutputs s t ↔ s.quiet = t.quiet := Iff.rfl

@[simp] theorem State.quiet_pc (s : State) : s.quiet.pc = s.pc := rfl
@[simp] theorem State.quiet_mode (s : State) : s.quiet.mode = s.mode := rfl
@[simp] theorem State.resolve_quiet (s : State) (a : Nat) : s.quiet.resolve a = s.resolve a := rfl
@[simp] theorem State.indexed_quiet (s : State) (k : Nat) : s.quiet.indexed k = s.indexed k := rfl
@[simp] theorem State.keyOf_quiet (s : State) (x : Reg) : s.quiet.keyOf x = s.keyOf x := rfl
@[simp] theorem State.fetch_quiet (s : State) : s.quiet.fetch = s.fetch := rfl

/-- An outcome with the outputs of its next state erased. -/
def quietOut : Out → Out
  | .next t => .next t.quiet
  | .fault f => .fault f
  | .refused r => .refused r

theorem quietOut_eq_next (o : Out) (u : State) (h : quietOut o = .next u) : ∃ t, o = .next t ∧ t.quiet = u := by
  cases o with
  | next t => exact ⟨t, rfl, Host.Outcome.next.inj h⟩
  | fault f => cases h
  | refused r => cases h

/-! ## The shared operations -/

theorem State.memReads_quiet (s : State) (a n : Nat) : s.quiet.memReads a n = s.memReads a n := by
  induction n generalizing a with
  | zero => rfl
  | succ n ih =>
    unfold State.memReads
    rw [ih]; rfl

theorem State.memWrites_quiet (s : State) (a : Nat) (bs : List Byte) :
    s.quiet.memWrites a bs = (s.memWrites a bs).map State.quiet := by
  induction bs generalizing s a with
  | nil => rfl
  | cons b bs ih =>
    rw [State.memWrites_cons, State.memWrites_cons, State.resolve_quiet]
    cases s.resolve a with
    | ok p => exact ih (s.setByte p b) (a + 1)
    | error f => rfl

theorem State.setVs_quiet (s : State) (k : Nat) (bs : List Byte) : s.quiet.setVs k bs = (s.setVs k bs).quiet := by
  induction bs generalizing s k with
  | nil => rfl
  | cons b bs ih => exact ih (s.setV (BitVec.ofNat 4 k) b) (k + 1)

theorem State.push_of_room (s : State) (a : Word) (room : s.sp.val < 16) :
    s.push a = some { s with stack := s.stack.set s.sp.val a room, sp := ⟨s.sp.val + 1, by omega⟩ } := dif_pos room

theorem State.push_of_full (s : State) (a : Word) (full : ¬ s.sp.val < 16) : s.push a = none := dif_neg full

theorem State.pop_of_live (s : State) (live : 0 < s.sp.val) :
    s.pop = some (s.stack[s.sp.val - 1]'(by omega), { s with sp := ⟨s.sp.val - 1, by omega⟩ }) := dif_pos live

theorem State.pop_of_empty (s : State) (empty : ¬ 0 < s.sp.val) : s.pop = none := dif_neg empty

theorem State.push_quiet (s : State) (a : Word) : s.quiet.push a = (s.push a).map State.quiet := by
  by_cases room : s.sp.val < 16
  · rw [s.push_of_room a room, s.quiet.push_of_room a room]; rfl
  · rw [s.push_of_full a room, s.quiet.push_of_full a room]; rfl

theorem State.pop_quiet (s : State) : s.quiet.pop = s.pop.map fun p => (p.1, p.2.quiet) := by
  by_cases live : 0 < s.sp.val
  · rw [s.pop_of_live live, s.quiet.pop_of_live live]; rfl
  · rw [s.pop_of_empty live, s.quiet.pop_of_empty live]; rfl

theorem State.storeAtI_quiet (s : State) (bs : List Byte) :
    quietOut (finish (s.quiet.storeAtI bs)) = quietOut (finish (s.storeAtI bs)) := by
  unfold State.storeAtI
  rw [State.indexed_quiet, State.memWrites_quiet]
  cases s.memWrites (s.indexed 0) bs <;> rfl

/-! ## An instruction and a step -/

theorem exec_quiet (i : Instr) (s : State) : quietOut (exec i s.quiet) = quietOut (exec i s) := by
  cases i with
  | ret =>
    simp only [exec, execRet]
    rw [State.pop_quiet]
    cases s.pop <;> rfl
  | call nnn =>
    simp only [exec, execCall]
    rw [State.quiet_pc, State.push_quiet]
    cases s.push (s.pc + 2) <;> rfl
  | drw x y n =>
    simp only [exec, execDrw]
    rw [State.memReads_quiet, State.indexed_quiet]
    cases s.memReads (s.indexed 0) n.toNat <;> rfl
  | loadRegs x =>
    simp only [exec, execLoadRegs]
    rw [State.memReads_quiet, State.indexed_quiet]
    cases s.memReads (s.indexed 0) (x.toNat + 1) with
    | ok bytes => simp only [State.setVs_quiet]; rfl
    | error f => rfl
  | skp x =>
    simp only [exec, execSkp]
    rw [State.keyOf_quiet]
    cases s.keyOf x <;> rfl
  | sknp x =>
    simp only [exec, execSknp]
    rw [State.keyOf_quiet]
    cases s.keyOf x <;> rfl
  | ldB x => exact s.storeAtI_quiet _
  | storeRegs x => exact s.storeAtI_quiet _
  | _ => rfl

theorem step_quiet (s : State) : quietOut (step s.quiet) = quietOut (step s) := by
  unfold step cycle
  rw [State.quiet_mode, State.fetch_quiet]
  cases s.mode with
  | halted => rfl
  | waitingForKey => rfl
  | running =>
    cases s.fetch with
    | error f => rfl
    | ok w =>
      simp only [executeWord]
      cases decodeWord w with
      | none => rfl
      | some i => exact exec_quiet i s

/-- Settles O60: both steps answer, outputs apart, what the step of their common erasure answers. -/
theorem outputsDoNotInfluenceExecution : Obligations.OutputsDoNotInfluenceExecution := by
  intro s s' t same h
  have hq : quietOut (step s') = .next t.quiet := by
    calc quietOut (step s') = quietOut (step s'.quiet) := (step_quiet s').symm
      _ = quietOut (step s.quiet) := by rw [(sameButOutputs_iff s s').mp same]
      _ = quietOut (step s) := step_quiet s
      _ = .next t.quiet := by rw [h]; rfl
  obtain ⟨t', hstep, ht⟩ := quietOut_eq_next _ _ hq
  exact ⟨t', hstep, (sameButOutputs_iff t t').mpr ht.symm⟩

end Sys2Proof.Machine
end

section
/-! The bytes of an instruction (spec/20_memory.md R64, spec/30_encoding.md R90): how they stand in memory and decode again. -/

namespace Sys2Proof

theorem highByte_eq (w : Word) : highByte w = BitVec.ofNat 8 (w.toNat / 256) := by
  simp [highByte, BitVec.extractLsb', Nat.shiftRight_eq_div_pow]

theorem lowByte_eq (w : Word) : lowByte w = BitVec.ofNat 8 (w.toNat % 256) := by
  apply BitVec.eq_of_toNat_eq
  simp [lowByte]

/-- SYS is told from CLS and RET by its operand (R96, R98). -/
theorem decode0_wordNNN (nnn : Imm12) (hwf : (Instr.sys nnn).wf = true) : decode0 (wordNNN 0x0 nnn) = .sys nnn := by
  obtain ⟨hcls, hret⟩ : nnn ≠ 0x0E0#12 ∧ nnn ≠ 0x0EE#12 := by simpa [Instr.wf] using hwf
  have operand : opNNN (wordNNN 0x0 nnn) = nnn := opNNN_wordNNN _ _
  have notCls : wordNNN 0x0 nnn ≠ 0x00E0#16 := fun hw => hcls (by rw [← operand, hw]; rfl)
  have notRet : wordNNN 0x0 nnn ≠ 0x00EE#16 := fun hw => hret (by rw [← operand, hw]; rfl)
  rw [decode0, if_neg notCls, if_neg notRet, operand]

/-- The decoder reads back every field that the encoder puts into a word (R92, R95). -/
theorem decodeWord_encode (i : Instr) (hwf : i.wf = true) : decodeWord (encode i) = some i := by
  cases i with
  | cls => rfl
  | ret => rfl
  | sys nnn =>
    have family : decodeWord (wordNNN 0x0 nnn) = some (decode0 (wordNNN 0x0 nnn)) := by simp [decodeWord]
    exact family.trans (congrArg some (decode0_wordNNN nnn hwf))
  | _ => simp [encode, decodeWord, decode8, decodeE, decodeF]

/-- Settles O5: the two bytes put together again are the word, which decodes to the instruction. -/
theorem decodeReadsTwoBytesHighFirst : Obligations.DecodeReadsTwoBytesHighFirst := by
  intro i rest hwf
  constructor
  · simp only [encodeBytes, List.cons_append, List.nil_append, decode, wordOfBytes_bytes, decodeWord_encode i hwf]
  · rw [encodeBytes, highByte_eq, lowByte_eq]

end Sys2Proof
end

section
/-! Memory (spec/20_memory.md): the fetch, accesses outside memory, and the store that the next fetch sees. -/

namespace Sys2Proof.Machine

/-! ## The fetch (R63) -/

theorem State.resolve_wrap (s : State) (a : Nat) (hw : s.cfg.memOob = .wrap) : s.resolve a = .ok (a % 4096) := by
  obtain ⟨p, hp⟩ := s.resolve_ok_of a (.inl hw)
  rcases s.resolve_ok a p hp with ⟨ha, rfl⟩ | ⟨-, -, rfl⟩
  · rw [hp, Nat.mod_eq_of_lt (by omega)]
  · exact hp

/-- The fetched word is that of the bytes which PC and PC + 1 use. -/
theorem State.fetch_of_resolve (s : State) (p q : Nat) (hp : s.resolve s.pc.toNat = .ok p)
    (hq : s.resolve (s.pc.toNat + 1) = .ok q) : s.fetch = .ok (wordOfBytes (s.byteAt p) (s.byteAt q)) := by
  simp [State.fetch, State.memRead, hp, hq]

theorem State.fetch_of_inside (s : State) (hpc : s.pc.toNat ≤ 0xFFE) :
    s.fetch = .ok (wordOfBytes (s.byteAt s.pc.toNat) (s.byteAt (s.pc.toNat + 1))) :=
  s.fetch_of_resolve _ _ (s.resolve_inside _ (by omega)) (s.resolve_inside _ (by omega))

theorem State.fetch_of_outside (s : State) (hf : s.cfg.memOob = .fault) (hpc : 0xFFE < s.pc.toNat) :
    s.fetch = .error .addressOutOfRange := by
  cases hw : s.fetch with
  | ok w => exact absurd (s.fetch_inside w hw hf) (Nat.not_le.mpr hpc)
  | error f => rw [(s.fetch_error f hw).1]

/-- Settles O10: PC and PC + 1 use their own bytes inside memory, and the bytes modulo 4096 under `MEM_OOB = wrap`. -/
theorem fetchIsBigEndianAtAnyParity : Obligations.FetchIsBigEndianAtAnyParity := fun s =>
  ⟨fun hpc => ⟨_, s.fetch_of_inside hpc, wordOfBytes_toNat _ _⟩,
    fun hw => ⟨_, s.fetch_of_resolve _ _ (s.resolve_wrap _ hw) (s.resolve_wrap _ hw), wordOfBytes_toNat _ _⟩⟩

/-! ## A step in RUNNING (R120) -/

theorem step_of_fetch_ok (s : State) (w : Word) (hrun : s.mode = .running) (hw : s.fetch = .ok w) :
    step s = executeWord w s := by
  simp [step, cycle, hrun, hw]

theorem step_of_fetch_error (s : State) (f : Fault) (hrun : s.mode = .running) (hf : s.fetch = .error f) :
    step s = .fault f := by
  simp [step, cycle, hrun, hf]

theorem executeWord_encode (i : Instr) (s : State) (hwf : i.wf = true) : executeWord (encode i) s = exec i s := by
  simp [executeWord, decodeWord_encode i hwf]

/-- Settles O11: one of the two byte reads of the fetch is outside memory. -/
theorem fetchOutsideMemoryFaults : Obligations.FetchOutsideMemoryFaults := fun s hrun hf hpc =>
  step_of_fetch_error s _ hrun (s.fetch_of_outside hf hpc)

/-- Settles O49: an unknown word stores nothing, and every instruction keeps the canonical form. -/
theorem stepKeepsMemoryCanonical : Obligations.StepKeepsMemoryCanonical := by
  intro s t hc h
  rcases step_next s t h with ⟨-, rfl⟩ | ⟨-, w, -, -, rfl⟩ | ⟨i, -, he⟩
  · exact hc
  · exact hc
  · exact exec_canonical i s t hc he

/-! ## Data accesses outside memory (R61, R62, U2) -/

section
variable (s : State) (k : Nat) (hf : s.cfg.memOob = .fault) (hk : 0xFFF < s.i.toNat + k)
include hf hk

theorem State.resolve_indexed_outside : s.resolve (s.indexed 0 + k) = .error .addressOutOfRange :=
  s.resolve_fault _ hf hk

/-- A store of several bytes from I upward faults when one of them has its address outside memory. -/
theorem State.storeAtI_outside (bytes : List Byte) (hlen : k < bytes.length) :
    s.storeAtI bytes = .error .addressOutOfRange := by
  simp [State.storeAtI, s.memWrites_faults _ k bytes hlen (s.resolve_indexed_outside k hf hk)]

/-- So does a read of several bytes. -/
theorem State.memReads_outside (n : Nat) (hn : k < n) : s.memReads (s.indexed 0) n = .error .addressOutOfRange :=
  s.memReads_faults _ n k hn (s.resolve_indexed_outside k hf hk)

end

/-- Settles O34: the last byte that each instruction stores or reads is the one outside memory. -/
theorem dataAccessOutsideMemoryFaults : Obligations.DataAccessOutsideMemoryFaults := by
  intro x y n s hf
  refine ⟨fun hlast => ?ldB, fun hlast => ?storeRegs, fun hlast => ?loadRegs, fun hn hlast => ?drw⟩
  case ldB =>
    have hstore := s.storeAtI_outside 2 hf hlast (decimalDigits (s.getV x)) (by simp [decimalDigits])
    exact congrArg finish hstore
  case storeRegs =>
    have hstore := s.storeAtI_outside x.toNat hf hlast (s.firstVs x) (by simp)
    exact congrArg finish hstore
  case loadRegs =>
    have hread := s.memReads_outside x.toNat hf hlast (x.toNat + 1) (Nat.lt_succ_self _)
    simp [exec, execLoadRegs, hread]
  case drw =>
    have hpos : 0 < n.toNat := Nat.pos_of_ne_zero fun h0 => hn (BitVec.eq_of_toNat_eq h0)
    have hread := s.memReads_outside (n.toNat - 1) hf (by omega) n.toNat (by omega)
    simp [exec, execDrw, hread]

/-! ## A store and the fetch after it (R74, R269) -/

theorem State.hitsByte_inside (s : State) (k : Nat) (h : s.i.toNat + k ≤ 0xFFF) : s.hitsByte k (s.i.toNat + k) :=
  s.resolve_inside _ h

theorem execStoreRegs_frame (x : Reg) (s t : State) (h : exec (.storeRegs x) s = .next t) :
    t = { s with mem := t.mem, pc := s.pc + 2 } := s.storeAtI_frame t _ (finish_next _ _ h)

/-- What LD [I],Vx leaves at the byte that `I + k` uses (R184). -/
theorem byteAt_execStoreRegs (x : Reg) (s t : State) (k p : Nat) (h : exec (.storeRegs x) s = .next t)
    (hk : k ≤ x.toNat) (hp : s.hitsByte k p) : t.byteAt p = s.getV (BitVec.ofNat 4 k) := by
  obtain ⟨u, hu, rfl⟩ := s.storeAtI_ok t _ (finish_next _ _ h)
  have hlen : (s.firstVs x).length ≤ memSize := by
    have hx : x.toNat < 16 := x.isLt
    simp only [State.firstVs_length, memSize]; omega
  have hk : k < (s.firstVs x).length := by simp only [State.firstVs_length]; omega
  rw [State.byteAt_advance, s.memWrites_same u _ k p _ hu hlen hk ((s.hitsByte_iff k p).mp hp), s.firstVs_get x k hk]

/-- Settles O59: LD [I],Vx has put the two bytes where PC then points, and they fetch as the instruction's word. -/
theorem storedCodeIsFetchedNext : Obligations.StoredCodeIsFetchedNext := by
  intro x s t i hrun hx hi hpc h hhigh hlow hwf
  have hframe := execStoreRegs_frame x s t h
  have htrun : t.mode = .running := by rw [hframe]; exact hrun
  have htpc : t.pc = s.i := by rw [hframe, hi]
  have hinside : s.i.toNat ≤ 0xFFE := by rw [hi]; bv_omega
  have high : t.byteAt s.i.toNat = highByte (encode i) :=
    (byteAt_execStoreRegs x s t 0 _ h (Nat.zero_le _) (s.hitsByte_inside 0 (by omega))).trans hhigh
  have low : t.byteAt (s.i.toNat + 1) = lowByte (encode i) :=
    (byteAt_execStoreRegs x s t 1 _ h hx (s.hitsByte_inside 1 (by omega))).trans hlow
  have hfetch : t.fetch = .ok (encode i) := by
    rw [t.fetch_of_inside (htpc ▸ hinside), htpc, high, low, wordOfBytes_bytes]
  rw [step_of_fetch_ok t _ htrun hfetch, executeWord_encode i t hwf]

end Sys2Proof.Machine
end

section
/-! The decoder and the encoder are inverse to each other, and the decoder follows the opcode table (spec/30_encoding.md R92
to R97). -/

namespace Sys2Proof

/-! ## A word put together again from its own operands (R92) -/

theorem wordNNN_operands {w : Word} {h : Nibble} (hi : opHi w = h) : wordNNN h (opNNN w) = w := hi ▸ wordNNN_fields w

theorem wordXKK_operands {w : Word} {h : Nibble} {k : Byte} (hi : opHi w = h) (hk : opKK w = k) :
    wordXKK h (opX w) k = w := hi ▸ hk ▸ wordXKK_fields w

theorem wordXYN_operands {w : Word} {h n : Nibble} (hi : opHi w = h) (hn : opN w = n) :
    wordXYN h (opX w) (opY w) n = w := hi ▸ hn ▸ wordXYN_fields w

/-- An instruction that is not well-formed is written as CLS or RET is (R98). -/
theorem wf_of_encode_ne (i : Instr) (notCls : encode i ≠ 0x00E0#16) (notRet : encode i ≠ 0x00EE#16) : i.wf = true := by
  cases i with
  | sys nnn =>
    have hcls : nnn ≠ 0x0E0#12 := fun h => notCls (by rw [h]; rfl)
    have hret : nnn ≠ 0x0EE#12 := fun h => notRet (by rw [h]; rfl)
    simp [Instr.wf, hcls, hret]
  | _ => rfl

/-! ## What each family of the decoder reads, encoded again (R94) -/

theorem encode_decode0 (w : Word) (hi : opHi w = 0x0) : (decode0 w).wf = true ∧ encode (decode0 w) = w := by
  unfold decode0
  split
  · next cls => exact ⟨rfl, cls.symm⟩
  split
  · next ret => exact ⟨rfl, ret.symm⟩
  · next notCls notRet =>
    have sysWord : encode (.sys (opNNN w)) = w := wordNNN_operands hi
    exact ⟨wf_of_encode_ne _ (sysWord.symm ▸ notCls) (sysWord.symm ▸ notRet), sysWord⟩

theorem encode_decode8 (w : Word) (i : Instr) (hi : opHi w = 0x8) (h : decode8 w = some i) :
    i.wf = true ∧ encode i = w := by
  rcases nibble_cases (opN w) with hn | hn | hn | hn | hn | hn | hn | hn | hn | hn | hn | hn | hn | hn | hn | hn <;>
    rw [decode8, hn] at h <;> cases h <;> exact ⟨rfl, wordXYN_operands hi hn⟩

theorem encode_decodeE (w : Word) (i : Instr) (hi : opHi w = 0xE) (h : decodeE w = some i) :
    i.wf = true ∧ encode i = w := by
  unfold decodeE at h
  split_ifs at h <;> cases h <;> next hkk => exact ⟨rfl, wordXKK_operands hi hkk⟩

theorem encode_decodeF (w : Word) (i : Instr) (hi : opHi w = 0xF) (h : decodeF w = some i) :
    i.wf = true ∧ encode i = w := by
  unfold decodeF at h
  split_ifs at h <;> cases h <;> next hkk => exact ⟨rfl, wordXKK_operands hi hkk⟩

/-- Whatever the decoder answers is well-formed and encodes to the word it was read from (R95, R96). -/
theorem encode_of_decodeWord (w : Word) (i : Instr) (h : decodeWord w = some i) : i.wf = true ∧ encode i = w := by
  rcases nibble_cases (opHi w) with hi | hi | hi | hi | hi | hi | hi | hi | hi | hi | hi | hi | hi | hi | hi | hi <;>
    rw [decodeWord, hi] at h
  -- One line for each value of `hi`, 0x0 to 0xF, as in `decodeWord`.
  · cases h; exact encode_decode0 w hi
  · cases h; exact ⟨rfl, wordNNN_operands hi⟩
  · cases h; exact ⟨rfl, wordNNN_operands hi⟩
  · cases h; exact ⟨rfl, wordXKK_operands hi rfl⟩
  · cases h; exact ⟨rfl, wordXKK_operands hi rfl⟩
  · obtain ⟨hn, ⟨⟩⟩ := Option.ite_none_right_eq_some.mp h; exact ⟨rfl, wordXYN_operands hi hn⟩
  · cases h; exact ⟨rfl, wordXKK_operands hi rfl⟩
  · cases h; exact ⟨rfl, wordXKK_operands hi rfl⟩
  · exact encode_decode8 w i hi h
  · obtain ⟨hn, ⟨⟩⟩ := Option.ite_none_right_eq_some.mp h; exact ⟨rfl, wordXYN_operands hi hn⟩
  · cases h; exact ⟨rfl, wordNNN_operands hi⟩
  · cases h; exact ⟨rfl, wordNNN_operands hi⟩
  · cases h; exact ⟨rfl, wordXKK_operands hi rfl⟩
  · cases h; exact ⟨rfl, wordXYN_operands hi rfl⟩
  · exact encode_decodeE w i hi h
  · exact encode_decodeF w i hi h

/-- Settles O1: the decoder reads back every field that the encoder puts into the word. -/
theorem decodeOfEncodeIsTheInstruction : Obligations.DecodeOfEncodeIsTheInstruction := decodeWord_encode

/-- Settles O2, family by family. -/
theorem decodedWordIsItsEncoding : Obligations.DecodedWordIsItsEncoding := encode_of_decodeWord

/-! ## The mask and match columns (R95) -/

/-- The word of every instruction has the fixed bits of its row. -/
theorem encode_and_mask (i : Instr) : encode i &&& i.mask = i.fixedBits :=
  open Laws.EncodeHasFixedBits in
  Instr.casesOn (motive := Statement) i cls ret sys jp call seImm sneImm seReg ldImm addImm ldReg orReg andReg xorReg addReg
    subReg shr subn shl sneReg ldI jpV0 rnd drw skp sknp ldVxDT ldVxK ldDTVx ldSTVx addI ldF ldB storeRegs loadRegs

theorem word_and_ones (w : Word) : w &&& 0xFFFF#16 = w := by
  rw [show 0xFFFF#16 = BitVec.allOnes 16 by decide, BitVec.and_allOnes]

/-! A word with the fixed bits of a format, put together again from them and its operands -/

theorem wordNNN_of_mask {w : Word} {h : Nibble} (hm : w &&& 0xF000#16 = wordNNN h 0) : wordNNN h (opNNN w) = w :=
  wordNNN_operands ((opHi_of_mask_hi w _ hm).trans (opHi_wordNNN h 0))

theorem wordXKK_of_mask_hi {w : Word} {h : Nibble} (hm : w &&& 0xF000#16 = wordXKK h 0 0) :
    wordXKK h (opX w) (opKK w) = w :=
  wordXKK_operands ((opHi_of_mask_hi w _ hm).trans (opHi_wordXKK h 0 0)) rfl

theorem wordXYN_of_mask_hi {w : Word} {h : Nibble} (hm : w &&& 0xF000#16 = wordXYN h 0 0 0) :
    wordXYN h (opX w) (opY w) (opN w) = w :=
  wordXYN_operands ((opHi_of_mask_hi w _ hm).trans (opHi_wordXYN h 0 0 0)) rfl

theorem wordXKK_of_mask {w : Word} {h : Nibble} {k : Byte} (hm : w &&& 0xF0FF#16 = wordXKK h 0 k) :
    wordXKK h (opX w) k = w := by
  obtain ⟨hi, hk⟩ := fields_of_mask_X w _ hm
  exact wordXKK_operands (hi.trans (opHi_wordXKK h 0 k)) (hk.trans (opKK_wordXKK h 0 k))

theorem wordXYN_of_mask {w : Word} {h n : Nibble} (hm : w &&& 0xF00F#16 = wordXYN h 0 0 n) :
    wordXYN h (opX w) (opY w) n = w := by
  obtain ⟨hi, hn⟩ := fields_of_mask_XY w _ hm
  exact wordXYN_operands (hi.trans (opHi_wordXYN h 0 0 n)) (hn.trans (opN_wordXYN h 0 0 n))

/-- The instruction of the same row whose operands are the fields of `w` (R92). -/
def Instr.withOperandsOf (w : Word) : Instr → Instr
  | .cls => .cls
  | .ret => .ret
  | .sys _ => .sys (opNNN w)
  | .jp _ => .jp (opNNN w)
  | .call _ => .call (opNNN w)
  | .seImm _ _ => .seImm (opX w) (opKK w)
  | .sneImm _ _ => .sneImm (opX w) (opKK w)
  | .seReg _ _ => .seReg (opX w) (opY w)
  | .ldImm _ _ => .ldImm (opX w) (opKK w)
  | .addImm _ _ => .addImm (opX w) (opKK w)
  | .ldReg _ _ => .ldReg (opX w) (opY w)
  | .orReg _ _ => .orReg (opX w) (opY w)
  | .andReg _ _ => .andReg (opX w) (opY w)
  | .xorReg _ _ => .xorReg (opX w) (opY w)
  | .addReg _ _ => .addReg (opX w) (opY w)
  | .subReg _ _ => .subReg (opX w) (opY w)
  | .shr _ _ => .shr (opX w) (opY w)
  | .subn _ _ => .subn (opX w) (opY w)
  | .shl _ _ => .shl (opX w) (opY w)
  | .sneReg _ _ => .sneReg (opX w) (opY w)
  | .ldI _ => .ldI (opNNN w)
  | .jpV0 _ => .jpV0 (opNNN w)
  | .rnd _ _ => .rnd (opX w) (opKK w)
  | .drw _ _ _ => .drw (opX w) (opY w) (opN w)
  | .skp _ => .skp (opX w)
  | .sknp _ => .sknp (opX w)
  | .ldVxDT _ => .ldVxDT (opX w)
  | .ldVxK _ => .ldVxK (opX w)
  | .ldDTVx _ => .ldDTVx (opX w)
  | .ldSTVx _ => .ldSTVx (opX w)
  | .addI _ => .addI (opX w)
  | .ldF _ => .ldF (opX w)
  | .ldB _ => .ldB (opX w)
  | .storeRegs _ => .storeRegs (opX w)
  | .loadRegs _ => .loadRegs (opX w)

@[simp] theorem Instr.fixedBits_withOperandsOf (w : Word) (i : Instr) : (i.withOperandsOf w).fixedBits = i.fixedBits := by
  cases i <;> rfl

@[simp] theorem Instr.mask_withOperandsOf (w : Word) (i : Instr) : (i.withOperandsOf w).mask = i.mask := by
  cases i <;> rfl

/-- A word with the fixed bits of a row is that row's pattern filled with the word's own operands: the mask fixes the fields
that are no operands, format by format. -/
theorem encode_withOperandsOf (w : Word) (i : Instr) (hm : w &&& i.mask = i.fixedBits) : encode (i.withOperandsOf w) = w := by
  cases i with
  | cls | ret => exact hm.symm.trans (word_and_ones w)
  | sys _ | jp _ | call _ | ldI _ | jpV0 _ => exact wordNNN_of_mask hm
  | seImm _ _ | sneImm _ _ | ldImm _ _ | addImm _ _ | rnd _ _ => exact wordXKK_of_mask_hi hm
  | drw _ _ _ => exact wordXYN_of_mask_hi hm
  | seReg _ _ | sneReg _ _ | ldReg _ _ | orReg _ _ | andReg _ _ | xorReg _ _ | addReg _ _ | subReg _ _ | shr _ _ | subn _ _
  | shl _ _ => exact wordXYN_of_mask hm
  | skp _ | sknp _ | ldVxDT _ | ldVxK _ | ldDTVx _ | ldSTVx _ | addI _ | ldF _ | ldB _ | storeRegs _ | loadRegs _ =>
    exact wordXKK_of_mask hm

/-- A word with the fixed bits of a row, other than those of CLS and RET, is read as an instruction of the row. -/
theorem decodeWord_of_mask (w : Word) (i : Instr) (hm : w &&& i.mask = i.fixedBits) (notCls : w ≠ 0x00E0#16)
    (notRet : w ≠ 0x00EE#16) : decodeWord w = some (i.withOperandsOf w) := by
  have hw := encode_withOperandsOf w i hm
  have hwf : (i.withOperandsOf w).wf = true := wf_of_encode_ne _ (by rwa [hw]) (by rwa [hw])
  have hread := decodeWord_encode _ hwf
  rwa [hw] at hread

/-- Settles O3: an encoding has its row's fixed bits, and a word that has them is an encoding of the row. -/
theorem decodeFollowsMaskAndMatch : Obligations.DecodeFollowsMaskAndMatch := by
  refine ⟨fun w i h => ?_, fun w i _ hm notCls notRet => ?_, rfl, rfl⟩
  · obtain ⟨-, rfl⟩ := encode_of_decodeWord w i h
    exact encode_and_mask i
  · exact ⟨_, decodeWord_of_mask w i hm notCls notRet, i.fixedBits_withOperandsOf w, i.mask_withOperandsOf w⟩

/-! ## The unknown words (R97) -/

theorem decode8_eq_none_iff (w : Word) : decode8 w = none ↔ (opN w).toNat ∈ [0x8, 0x9, 0xA, 0xB, 0xC, 0xD, 0xF] := by
  unfold decode8
  rcases nibble_cases (opN w) with h | h | h | h | h | h | h | h | h | h | h | h | h | h | h | h <;> simp [h]

theorem decodeE_eq_none_iff (w : Word) : decodeE w = none ↔ (opKK w).toNat ∉ [0x9E, 0xA1] := by
  simp [decodeE, ite_eq_iff, BitVec.toNat_eq]

theorem decodeF_eq_none_iff (w : Word) :
    decodeF w = none ↔ (opKK w).toNat ∉ [0x07, 0x0A, 0x15, 0x18, 0x1E, 0x29, 0x33, 0x55, 0x65] := by
  simp [decodeF, ite_eq_iff, BitVec.toNat_eq]

/-- Settles O4: the families 5, 8, 9, E and F alone leave words out, each the words of its own space. -/
theorem unknownWordsAreTheListedSpaces : Obligations.UnknownWordsAreTheListedSpaces := by
  intro w
  rcases nibble_cases (opHi w) with h | h | h | h | h | h | h | h | h | h | h | h | h | h | h | h <;>
    simp [decodeWord, h, decode8_eq_none_iff, decodeE_eq_none_iff, decodeF_eq_none_iff]

/-! ## The sample words -/

/-- Settles O6 by evaluating the decoder on each word. -/
theorem sampleWordsDecode : Obligations.SampleWordsDecode := by
  unfold Obligations.SampleWordsDecode
  decide

end Sys2Proof
end

section
/-! The step cycle (spec/40_step_cycle.md): what a step is in each mode, how it can stop, and runs that cannot stop. -/

namespace Sys2Proof.Machine

/-! ## One step, in each mode (R120, R126) -/

theorem step_of_not_running (s : State) (hm : s.mode ≠ .running) : step s = .next s := by
  unfold step cycle
  cases h : s.mode with
  | halted => rfl
  | waitingForKey => rfl
  | running => exact absurd h hm

theorem executeWord_unknown (s : State) (w : Word) (hw : decodeWord w = none) :
    executeWord w s = .next (s.reportUnknown w) := by
  simp [executeWord, hw]

theorem State.fetch_of_memRead (s : State) (high low : Byte) (hhigh : s.memRead s.pc.toNat = .ok high)
    (hlow : s.memRead (s.pc.toNat + 1) = .ok low) : s.fetch = .ok (wordOfBytes high low) := by
  simp [State.fetch, hhigh, hlow]

theorem State.stepResult_of_running (s : State) (hrun : s.mode = .running) : s.stepResult = .executed := by
  simp [State.stepResult, hrun]

theorem State.oneEvent_reportUnknown (s : State) (w : Word) : OneEvent 1 s (s.reportUnknown w) :=
  ⟨.unknownOpcode w s.pc, rfl, rfl⟩

/-- Settles O7: the two bytes at PC make up the word of the instruction, which decodes back to it. -/
theorem stepRunsTheDecodedInstruction : Obligations.StepRunsTheDecodedInstruction := by
  intro s i hrun hwf hhigh hlow
  have hfetch : s.fetch = .ok (encode i) := by
    rw [s.fetch_of_memRead _ _ hhigh hlow, wordOfBytes_bytes]
  refine ⟨?_, s.stepResult_of_running hrun⟩
  rw [step_of_fetch_ok s _ hrun hfetch, executeWord_encode i s hwf]

/-- Settles O9: the step is `reportUnknown`, whose frame is the event alone. -/
theorem unknownWordIsReportedAndSkipped : Obligations.UnknownWordIsReportedAndSkipped := by
  intro s w hrun hfetch hunknown
  have hstep : step s = .next (s.reportUnknown w) := by
    rw [step_of_fetch_ok s w hrun hfetch, executeWord_unknown s w hunknown]
  have hframe := s.reportUnknown_frame w
  exact ⟨_, hstep, rfl, s.oneEvent_reportUnknown w, (hframe.mode rfl).trans hrun, s.stepResult_of_running hrun, hframe⟩

/-! ## How a step can stop (U1 to U3) -/

/-- Every step is one of four: nothing, a fetch that faults, a report, or the operation of an instruction. -/
theorem step_cases (s : State) :
    step s = .next s ∨ (∃ f, s.fetch = .error f ∧ step s = .fault f) ∨
    (∃ w, step s = .next (s.reportUnknown w)) ∨ ∃ i, step s = exec i s := by
  by_cases hrun : s.mode = .running
  · cases hf : s.fetch with
    | error f => exact .inr (.inl ⟨f, rfl, step_of_fetch_error s f hrun hf⟩)
    | ok w =>
      have hstep := step_of_fetch_ok s w hrun hf
      cases hd : decodeWord w with
      | none => exact .inr (.inr (.inl ⟨w, hstep.trans (executeWord_unknown s w hd)⟩))
      | some i => exact .inr (.inr (.inr ⟨i, hstep.trans (by simp [executeWord, hd])⟩))
  · exact .inl (step_of_not_running s hrun)

theorem step_not_refused (s : State) (r : Refusal) : step s ≠ .refused r := by
  rcases step_cases s with h | ⟨f, -, h⟩ | ⟨w, h⟩ | ⟨i, h⟩ <;> rw [h]
  · nofun
  · nofun
  · nofun
  · exact exec_not_refused i s r

/-- A step faults in its fetch, under `MEM_OOB = fault`, or in the operation that it runs. -/
theorem step_fault (s : State) (f : Fault) (hfault : step s = .fault f) :
    (f = .addressOutOfRange ∧ s.cfg.memOob = .fault) ∨ (f = .keyIndexOutOfRange ∧ s.cfg.keyOob = .fault) := by
  rcases step_cases s with h | ⟨g, hg, h⟩ | ⟨w, h⟩ | ⟨i, h⟩ <;> rw [h] at hfault
  · cases hfault
  · obtain rfl := Host.Outcome.fault.inj hfault
    exact .inl (s.fetch_error g hg)
  · cases hfault
  · exact exec_fault i s f hfault

theorem State.total.step_next {s : State} (ht : s.total) : ∃ t : State, step s = .next t := by
  obtain ⟨hmem, hkey⟩ := ht
  cases hstep : step s with
  | next t => exact ⟨t, rfl⟩
  | fault f => rcases step_fault s f hstep with ⟨-, h⟩ | ⟨-, h⟩ <;> simp [hmem, hkey] at h
  | refused r => exact absurd hstep (step_not_refused s r)

/-- The two parameters are configuration, which no step writes (R37). -/
theorem State.total.of_step {s t : State} (ht : s.total) (h : step s = .next t) : t.total := by
  rwa [State.total, step_cfg s t h]

/-! ## Runs -/

/-- A run goes on from the state that its first step answers. -/
theorem run_succ_of_step (k : Nat) (s t : State) (h : step s = .next t) :
    Host.Core.run core (k + 1) s = Host.Core.run core k t := by
  have hcore : Host.Core.step core s = .next t := h
  simp only [Host.Core.run, hcore]

theorem run_of_not_running (k : Nat) (s : State) (hm : s.mode ≠ .running) : Host.Core.run core k s = .next s := by
  induction k with
  | zero => rfl
  | succ k ih => rw [run_succ_of_step k s s (step_of_not_running s hm), ih]

/-- Settles O8: a step outside RUNNING answers its own state, and so does a run, by induction on the number of steps. -/
theorem stepsOutsideRunningDoNothing : Obligations.StepsOutsideRunningDoNothing := fun s k hm =>
  ⟨run_of_not_running k s hm, fun hhalted => by simp [State.stepResult, hhalted],
    fun hwaiting => by simp [State.stepResult, hwaiting]⟩

/-- Settles O13, by induction on the number of steps: a step from a state with neither parameter at `fault` answers another. -/
theorem runsStopOnlyUnderAFaultParameter : Obligations.RunsStopOnlyUnderAFaultParameter := by
  intro k
  induction k with
  | zero => exact fun s _ => ⟨s, rfl⟩
  | succ k ih =>
    intro s ht
    obtain ⟨u, hstep⟩ := ht.step_next
    obtain ⟨t, hrun⟩ := ih u (ht.of_step hstep)
    exact ⟨t, (run_succ_of_step k s u hstep).trans hrun⟩

end Sys2Proof.Machine
end

section
/-! Control transfer (spec/41_control_flow.md): jumps, compare-skips, CALL and RET with room on the stack, SYS. -/

namespace Sys2Proof.Machine

/-! ## Targets of a jump (R142, R148; D32) -/

@[simp] theorem addrOf_toNat (nnn : Imm12) : (addrOf nnn).toNat = nnn.toNat :=
  BitVec.toNat_setWidth_of_le (by decide)

@[simp] theorem widen_toNat (b : Byte) : (widen b).toNat = b.toNat :=
  BitVec.toNat_setWidth_of_le (by decide)

/-- A byte and a 12-bit address have a sum below 65536, so the 16-bit addition does not wrap. -/
theorem widen_add_addrOf_toNat (b : Byte) (nnn : Imm12) : (widen b + addrOf nnn).toNat = b.toNat + nnn.toNat := by
  rw [BitVec.toNat_add, widen_toNat, addrOf_toNat]
  omega

/-! ## The skips (R125) -/

theorem State.skipIf_beq_pc (s : State) (a b : Byte) :
    (s.skipIf (a == b)).pc = if a.toNat = b.toNat then s.pc + 4 else s.pc + 2 := by
  simp [BitVec.toNat_inj]

theorem State.skipIf_bne_pc (s : State) (a b : Byte) :
    (s.skipIf (a != b)).pc = if a.toNat = b.toNat then s.pc + 2 else s.pc + 4 := by
  by_cases h : a = b <;> simp [BitVec.toNat_inj, h]

/-! ## CALL and RET that do not halt (R140, R143) -/

theorem exec_call_of_room (nnn : Imm12) (s : State) (room : s.sp.val < 16) :
    exec (.call nnn) s = .next { s with
      pc := addrOf nnn, stack := s.stack.set s.sp.val (s.pc + 2) room, sp := ⟨s.sp.val + 1, by omega⟩ } := by
  change execCall nnn s = _
  rw [execCall, s.push_of_room _ room]
  rfl

theorem exec_ret_of_live (s : State) (live : 0 < s.sp.val) :
    exec .ret s = .next { s with
      pc := s.stack[s.sp.val - 1]'(by omega), sp := ⟨s.sp.val - 1, by omega⟩ } := by
  change execRet s = _
  rw [execRet, s.pop_of_live live]
  rfl

/-- The frame of an execution that halts nothing and reports nothing, where other executions of the instruction may. -/
theorem Unchanged.withModeAndEvents {c : Changes} {s t : State} (h : Unchanged c s t) (mode : t.mode = s.mode)
    (events : t.events = s.events) : Unchanged { c with mode := false, events := false } s t :=
  { h with mode := fun _ => mode, events := fun _ => events }

/-! ## The obligations -/

/-- Settles O20: RET reads the entry that CALL wrote, at the SP that CALL started from. -/
theorem callThenReturnComesBack : Obligations.CallThenReturnComesBack := by
  intro nnn s t u room hcall hstack hsp
  rw [exec_call_of_room nnn s room] at hcall
  obtain rfl := Host.Outcome.next.inj hcall
  have live : 0 < u.sp.val := by simp [hsp]
  refine ⟨_, exec_ret_of_live u live, ?_, ?_⟩
  · simp [hstack, hsp]
  · simp [hsp]

/-- Settles O14: JP has one line of the decoder, and its operation is `jumpTo`. -/
theorem jumpSetsPcToItsTarget : Obligations.JumpSetsPcToItsTarget :=
  ⟨fun w hi => by simp [decodeWord, hi], fun nnn s => ⟨_, rfl, addrOf_toNat nnn, exec_frame (.jp nnn) s _ rfl⟩⟩

/-- Settles O15: each word is one line of the decoder; each operation is `skipIf` of an equality or its negation. -/
theorem compareSkipsAddFourOrTwo : Obligations.CompareSkipsAddFourOrTwo := by
  refine ⟨fun w => ⟨fun hi => ?_, fun hi => ?_, fun hi => ?_, fun hi => ?_⟩, fun x y kk s => ⟨?_, ?_, ?_, ?_⟩⟩
  iterate 4 · simp [decodeWord, hi]
  · exact ⟨_, rfl, s.skipIf_beq_pc _ _, exec_frame (.seImm x kk) s _ rfl⟩
  · exact ⟨_, rfl, s.skipIf_bne_pc _ _, exec_frame (.sneImm x kk) s _ rfl⟩
  · exact ⟨_, rfl, s.skipIf_beq_pc _ _, exec_frame (.seReg x y) s _ rfl⟩
  · exact ⟨_, rfl, s.skipIf_bne_pc _ _, exec_frame (.sneReg x y) s _ rfl⟩

/-- Settles O16: the 16-bit sum is the sum of the two numbers. -/
theorem indexedJumpAddsVZero : Obligations.IndexedJumpAddsVZero := fun nnn s =>
  ⟨_, rfl, widen_add_addrOf_toNat (s.getV 0) nnn, exec_frame (.jpV0 nnn) s _ rfl⟩

/-- Settles O17: with room CALL is its push and its jump, and neither writes MODE or reports. -/
theorem callPushesTheReturnAddress : Obligations.CallPushesTheReturnAddress := by
  intro nnn s room
  have hcall := exec_call_of_room nnn s room
  refine ⟨_, hcall, addrOf_toNat nnn, rfl, fun k => ?_, (exec_frame _ s _ hcall).withModeAndEvents rfl rfl⟩
  simp [Vector.getElem_set, eq_comm]

/-- Settles O18: with a live entry RET is its pop and its jump, and neither writes MODE or reports. -/
theorem returnPopsTheReturnAddress : Obligations.ReturnPopsTheReturnAddress := by
  intro s live
  have hret := exec_ret_of_live s live
  refine ⟨_, hret, Nat.sub_add_cancel live, fun k hk => ?_, (exec_frame _ s _ hret).withModeAndEvents rfl rfl⟩
  simp [hk]

/-- Settles O21: SYS is the report of an unknown word, its own. -/
theorem sysReportsAndAdvances : Obligations.SysReportsAndAdvances := fun _ s =>
  ⟨_, rfl, rfl, s.oneEvent_reportUnknown _, s.reportUnknown_frame _⟩

end Sys2Proof.Machine
end

section
/-! Load, arithmetic, logic, random (spec/42_load_alu.md): each instruction ends in `load` or in `loadWithFlag`, so a proof needs
the value of the byte written, and that of the flag. -/

namespace Sys2Proof.Machine

/-! ## The two forms of a register write (R158, R159) -/

theorem State.getV_load_same (s : State) (x : Reg) (b : Byte) : (s.load x b).getV x = b := by
  simp

theorem State.getV_loadRandom_same (s : State) (rnd : Byte) (x : Reg) (kk : Byte) :
    (s.loadRandom rnd x kk).getV x = rnd &&& kk :=
  s.getV_load_same x _

/-- The outcome of an instruction that writes a result and a flag, from the two bytes' values as numbers. The flag is
written last, so it is what VF holds for every x, 15 included (D7). -/
theorem exec_flagWriter {i : Instr} {s : State} {x : Reg} {b f : Byte} {result flag : Nat}
    (hexec : exec i s = .next (s.loadWithFlag x b f)) (hchanges : changesOf i = { regs := [x, 15] })
    (hresult : b.toNat = result) (hflag : f.toNat = flag) :
    ∃ t : State, exec i s = .next t ∧ (x ≠ 15#4 → (t.getV x).toNat = result) ∧ (t.getV 15#4).toNat = flag ∧
      t.pc = s.pc + 2 ∧ Unchanged { regs := [x, 15] } s t := by
  refine ⟨_, hexec, fun notFlag => ?_, ?_, rfl, hchanges ▸ exec_frame i s _ hexec⟩
  · simp [notFlag, hresult]
  · simp [hflag]

/-! ## Flags and results as numbers (R158, R167 to R171) -/

theorem carryOf_toNat (a b : Byte) : (carryOf a b).toNat = if 255 < a.toNat + b.toNat then 1 else 0 := by
  simp [carryOf]

theorem notBorrowOf_toNat (a b : Byte) : (notBorrowOf a b).toNat = if b.toNat ≤ a.toNat then 1 else 0 := by
  simp [notBorrowOf]

theorem flagByte_getLsbD_toNat (src : Byte) (k : Nat) : (flagByte (src.getLsbD k)).toNat = src.toNat / 2 ^ k % 2 := by
  rw [flagByte_toNat, ← Nat.toNat_testBit, BitVec.testBit_toNat]
  cases src.getLsbD k <;> rfl

theorem droppedRight_toNat (src : Byte) : (droppedRight src).toNat = src.toNat % 2 := by
  rw [droppedRight, flagByte_getLsbD_toNat, pow_zero, Nat.div_one]

/-- A byte's quotient by 128 is already a single bit. -/
theorem droppedLeft_toNat (src : Byte) : (droppedLeft src).toNat = src.toNat / 128 := by
  have hlt := src.isLt
  rw [droppedLeft, flagByte_getLsbD_toNat]
  omega

theorem byte_sub_toNat (a b : Byte) : (a - b).toNat = (a.toNat + 256 - b.toNat) % 256 := by
  rw [BitVec.toNat_sub]
  omega

theorem byte_shiftRight_one_toNat (src : Byte) : (src >>> 1).toNat = src.toNat / 2 := by
  rw [BitVec.toNat_ushiftRight, Nat.shiftRight_eq_div_pow, pow_one]

theorem byte_shiftLeft_one_toNat (src : Byte) : (src <<< 1).toNat = 2 * src.toNat % 256 := by
  rw [BitVec.toNat_shiftLeft, Nat.shiftLeft_eq, pow_one, Nat.mul_comm]

/-! ## The obligations -/

/-- Settles O22: each word is one line of the decoder, and each operation is `load` of the byte named. -/
theorem loadsAndImmediateAddWriteVx : Obligations.LoadsAndImmediateAddWriteVx := by
  refine ⟨fun w => ⟨fun hi => ?_, fun hi => ?_, fun hi hn => ?_⟩, fun x y kk s => ⟨?_, ?_, ?_⟩⟩
  · simp [decodeWord, hi]
  · simp [decodeWord, hi]
  · simp [decodeWord, hi, decode8, hn]
  · exact ⟨_, rfl, s.getV_load_same x kk, rfl, exec_frame (.ldImm x kk) s _ rfl⟩
  · refine ⟨_, rfl, ?_, rfl, exec_frame (.addImm x kk) s _ rfl⟩
    rw [s.getV_load_same, BitVec.toNat_add]
  · exact ⟨_, rfl, s.getV_load_same x (s.getV y), rfl, exec_frame (.ldReg x y) s _ rfl⟩

/-- Settles O23: each operation is `load` of the bitwise combination, and only V[x] is in its frame. -/
theorem logicIsBitwiseAndWritesNoFlag : Obligations.LogicIsBitwiseAndWritesNoFlag := by
  refine fun x y s => ⟨?_, ?_, ?_⟩
  · refine ⟨_, rfl, fun k _ => ?_, rfl, exec_frame (.orReg x y) s _ rfl⟩
    rw [s.getV_load_same, BitVec.getLsbD_or]
  · refine ⟨_, rfl, fun k _ => ?_, rfl, exec_frame (.andReg x y) s _ rfl⟩
    rw [s.getV_load_same, BitVec.getLsbD_and]
  · refine ⟨_, rfl, fun k _ => ?_, rfl, exec_frame (.xorReg x y) s _ rfl⟩
    rw [s.getV_load_same, BitVec.getLsbD_xor]

/-- Settles O24: ADD writes the sum and the carry. -/
theorem addGivesSumAndCarry : Obligations.AddGivesSumAndCarry := fun _ _ _ =>
  exec_flagWriter rfl rfl (BitVec.toNat_add _ _) (carryOf_toNat _ _)

/-- Settles O25: SUB and SUBN write the difference and its not-borrow, the operands exchanged. -/
theorem subtractionsGiveDifferenceAndNotBorrow : Obligations.SubtractionsGiveDifferenceAndNotBorrow := fun _ _ _ =>
  ⟨exec_flagWriter rfl rfl (byte_sub_toNat _ _) (notBorrowOf_toNat _ _),
    exec_flagWriter rfl rfl (byte_sub_toNat _ _) (notBorrowOf_toNat _ _)⟩

/-- Settles O26: SHR and SHL write the halved or doubled source and the bit it loses; the source is `shiftOperand` under both
settings of `SHIFT_SOURCE`. -/
theorem shiftsMoveOneBitAndReportIt : Obligations.ShiftsMoveOneBitAndReportIt := by
  intro x y s src hsrc
  obtain rfl : (s.shiftOperand x y).toNat = src := by
    rw [hsrc, State.shiftOperand]
    cases s.cfg.shiftSource <;> rfl
  exact ⟨exec_flagWriter rfl rfl (byte_shiftRight_one_toNat _) (droppedRight_toNat _),
    exec_flagWriter rfl rfl (byte_shiftLeft_one_toNat _) (droppedLeft_toNat _)⟩

/-- Settles O27: RND is `load` of the drawn byte AND kk, after the draw is counted. -/
theorem randomIsTheDrawnByteMasked : Obligations.RandomIsTheDrawnByteMasked := by
  intro x kk s
  refine ⟨_, rfl, fun k _ => ?_, ?_, rfl, rfl, exec_frame (.rnd x kk) s _ rfl⟩
  · rw [State.getV_loadRandom_same, BitVec.getLsbD_and]
  · rintro rfl
    rw [State.getV_loadRandom_same]
    exact BitVec.and_zero

end Sys2Proof.Machine
end

section
/-! Index register and memory (spec/43_index_memory.md): the loads of I, the two stores from I upward through their shared form
`storeAtI`, and the load of the registers. -/

namespace Sys2Proof.Machine

/-! ## Addresses (R61, R182) -/

/-- The highest glyph address is 75, so none of them is truncated. -/
theorem glyphAddr_toNat (v : Byte) : (glyphAddr v).toNat = 5 * (v.toNat % 16) := by
  rw [glyphAddr, BitVec.toNat_ofNat]
  omega

/-- The byte that `I + k` uses depends on I and the configuration only. -/
theorem State.hitsByte_congr {s t : State} (hi : t.i = s.i) (hcfg : t.cfg = s.cfg) (k p : Nat) :
    t.hitsByte k p ↔ s.hitsByte k p := by
  rw [State.hitsByte, State.indexed, hi, s.resolve_congr t hcfg, State.hitsByte, State.indexed]

theorem State.byteAt_congr {s t : State} (hmem : t.mem = s.mem) (hcfg : t.cfg = s.cfg) (a : Nat) :
    t.byteAt a = s.byteAt a := by
  rw [State.byteAt, hmem, hcfg, State.byteAt]

/-! ## Stores from I upward (R183, R184) -/

/-- The outcome of an instruction that stores a list of bytes from I upward: it completes when their addresses can be accessed,
each byte stands where its address leads, and nothing else changes but PC. -/
theorem exec_storing {i : Instr} {s : State} {bytes : List Byte} (hexec : exec i s = finish (s.storeAtI bytes))
    (hchanges : changesOf i = { mem := true }) (hlen : bytes.length ≤ memSize) (haccess : s.accessible bytes.length) :
    ∃ t : State, exec i s = .next t ∧
      (∀ (k p : Nat) (hk : k < bytes.length), s.hitsByte k p → t.byteAt p = bytes[k]) ∧
      (∀ a, (∀ k < bytes.length, ¬ s.hitsByte k a) → t.byteAt a = s.byteAt a) ∧
      t.pc = s.pc + 2 ∧ Unchanged { mem := true } s t := by
  obtain ⟨u, hu⟩ := s.memWrites_succeeds _ bytes (s.accessible_resolves _ haccess)
  have hstore : s.storeAtI bytes = .ok u.advance := by rw [State.storeAtI, hu]
  have hnext : exec i s = .next u.advance := by rw [hexec, hstore, finish]
  refine ⟨u.advance, hnext, fun k p hk hp => ?_, fun a ha => ?_, ?_, hchanges ▸ exec_frame i s _ hnext⟩
  · exact s.memWrites_same u _ k p bytes hu hlen hk ((s.hitsByte_iff k p).mp hp)
  · exact s.memWrites_other u _ a bytes hu fun k hk hp => ha k hk ((s.hitsByte_iff k a).mpr hp)
  · rw [s.storeAtI_frame _ bytes hstore]

theorem decimalDigits_length (v : Byte) : (decimalDigits v).length = 3 := rfl

/-- A number up to a byte's value, as each of its decimal digits is, fits a byte. -/
theorem byte_ofNat_toNat_of_le {v : Byte} {d : Nat} (hd : d ≤ v.toNat) : (BitVec.ofNat 8 d).toNat = d :=
  Nat.mod_eq_of_lt (hd.trans_lt v.isLt)

/-! ## Loads from I upward (R185) -/

/-- LD Vx,[I] puts into the first registers the bytes it read. -/
theorem exec_loadRegs_reads (x : Reg) (s t : State) (h : exec (.loadRegs x) s = .next t) :
    ∃ bytes, s.memReads (s.indexed 0) (x.toNat + 1) = .ok bytes ∧ t = (s.setVs 0 bytes).advance := by
  rw [exec, execLoadRegs] at h
  cases hread : s.memReads (s.indexed 0) (x.toNat + 1) with
  | ok bytes =>
    rw [hread] at h
    exact ⟨bytes, rfl, (Host.Outcome.next.inj h).symm⟩
  | error f =>
    rw [hread] at h
    cases h

theorem exec_loadRegs_succeeds (x : Reg) (s : State) (haccess : s.accessible (x.toNat + 1)) :
    ∃ t : State, exec (.loadRegs x) s = .next t := by
  obtain ⟨bytes, hread⟩ := s.memReads_succeeds _ _ (s.accessible_resolves _ haccess)
  exact ⟨(s.setVs 0 bytes).advance, by rw [exec, execLoadRegs, hread]⟩

theorem exec_loadRegs_pc (x : Reg) (s t : State) (h : exec (.loadRegs x) s = .next t) : t.pc = s.pc + 2 := by
  obtain ⟨bytes, -, rfl⟩ := exec_loadRegs_reads x s t h
  rw [s.setVs_frame, State.advance_pc]

/-- What LD Vx,[I] leaves in a register up to x. -/
theorem getV_exec_loadRegs (x r : Reg) (s t : State) (h : exec (.loadRegs x) s = .next t) (hr : r.toNat ≤ x.toNat) :
    ∃ p, s.hitsByte r.toNat p ∧ t.getV r = s.byteAt p := by
  obtain ⟨bytes, hread, rfl⟩ := exec_loadRegs_reads x s t h
  obtain ⟨hlen, hbytes⟩ := s.memReads_ok _ _ bytes hread
  have hx : x.toNat < 16 := x.isLt
  have hlt : r.toNat < bytes.length := by omega
  obtain ⟨p, hp, hbyte⟩ := hbytes r.toNat hlt
  refine ⟨p, (s.hitsByte_iff r.toNat p).mpr hp, ?_⟩
  rw [State.getV_advance, s.getV_setVs_same 0 r.toNat bytes (by omega) hlt r (by omega), hbyte]

/-- The registers above x are not among those that LD Vx,[I] may change. -/
theorem not_mem_changesOf_loadRegs (x r : Reg) (hr : x.toNat < r.toNat) : r ∉ (changesOf (.loadRegs x)).regs := by
  intro hmem
  obtain ⟨k, hk, rfl⟩ := List.mem_map.mp hmem
  have hle : (BitVec.ofNat 4 k).toNat ≤ k := Nat.mod_le k _
  have hkx := List.mem_range.mp hk
  omega

/-! ## The obligations -/

/-- Settles O30: LD B,Vx is the store of the three digits. -/
theorem decimalDigitsAreStoredAtI : Obligations.DecimalDigitsAreStoredAtI := by
  intro x s haccess
  have hlen := decimalDigits_length (s.getV x)
  obtain ⟨t, hexec, hsame, hother, hpc, hframe⟩ :=
    exec_storing (i := .ldB x) rfl rfl (by rw [hlen, memSize]; omega) (hlen ▸ haccess)
  refine ⟨t, hexec, fun p hp => ?_, fun p hp => ?_, fun p hp => ?_, hother, hpc, hframe⟩
  · rw [hsame 0 p (by omega) hp]
    exact byte_ofNat_toNat_of_le (Nat.div_le_self _ _)
  · rw [hsame 1 p (by omega) hp]
    exact byte_ofNat_toNat_of_le ((Nat.mod_le _ _).trans (Nat.div_le_self _ _))
  · rw [hsame 2 p (by omega) hp]
    exact byte_ofNat_toNat_of_le (Nat.mod_le _ _)

/-- Settles O31: LD [I],Vx is the store of V[0] to V[x]. -/
theorem registersAreStoredAtI : Obligations.RegistersAreStoredAtI := by
  intro x s haccess
  have hlen : (s.firstVs x).length = x.toNat + 1 := s.firstVs_length x
  have hx : x.toNat < 16 := x.isLt
  obtain ⟨t, hexec, -, hother, hpc, hframe⟩ :=
    exec_storing (i := .storeRegs x) rfl rfl (by rw [hlen, memSize]; omega) (hlen ▸ haccess)
  refine ⟨t, hexec, fun r p hr hp => ?_, fun a ha => ?_, hpc, hframe⟩
  · rw [byteAt_execStoreRegs x s t r.toNat p hexec hr hp, BitVec.ofNat_toNat, BitVec.setWidth_eq]
  · exact hother a fun k hk => ha k (by omega)

/-- Settles O32: each register up to x holds the byte that its address uses, and the frame keeps the others. -/
theorem registersAreLoadedFromI : Obligations.RegistersAreLoadedFromI := by
  intro x s haccess
  obtain ⟨t, hexec⟩ := exec_loadRegs_succeeds x s haccess
  have hframe := exec_frame (.loadRegs x) s t hexec
  refine ⟨t, hexec, fun r p hr hp => ?_, fun r hr => ?_, exec_loadRegs_pc x s t hexec, hframe⟩
  · obtain ⟨q, hq, hval⟩ := getV_exec_loadRegs x r s t hexec hr
    obtain rfl : q = p := Except.ok.inj (hq.symm.trans hp)
    exact hval
  · exact hframe.regs r (not_mem_changesOf_loadRegs x r hr)

/-- Settles O33: the load reads each register's byte where the store put it, since I and the configuration are the same. -/
theorem storedRegistersLoadBack : Obligations.StoredRegistersLoadBack := by
  intro x s t u r hstore hmem hi hcfg hload q hq
  have hframe := execStoreRegs_frame x s t hstore
  have hti : t.i = s.i := by rw [hframe]
  have htcfg : t.cfg = s.cfg := by rw [hframe]
  obtain ⟨p, hp, hval⟩ := getV_exec_loadRegs x q u r hload hq
  have hps : s.hitsByte q.toNat p := (State.hitsByte_congr (hi.trans hti) (hcfg.trans htcfg) _ _).mp hp
  calc r.getV q = u.byteAt p := hval
    _ = t.byteAt p := State.byteAt_congr hmem hcfg p
    _ = s.getV (BitVec.ofNat 4 q.toNat) := byteAt_execStoreRegs x s t q.toNat p hstore hq hps
    _ = s.getV q := by rw [BitVec.ofNat_toNat, BitVec.setWidth_eq]

/-- Settles O28: each word is one line of the decoder, and each operation is `setI` of the address named. -/
theorem indexLoadsGiveAddresses : Obligations.IndexLoadsGiveAddresses := by
  refine ⟨fun w => ⟨fun hi => ?_, fun hi hk => ?_⟩, fun nnn x s => ⟨?_, ?_⟩⟩
  · simp [decodeWord, hi]
  · simp [decodeWord, hi, decodeF, hk]
  · exact ⟨_, rfl, addrOf_toNat nnn, rfl, exec_frame (.ldI nnn) s _ rfl⟩
  · exact ⟨_, rfl, glyphAddr_toNat (s.getV x), rfl, exec_frame (.ldF x) s _ rfl⟩

/-- Settles O29: ADD I,Vx is `setI` of a 16-bit sum, and only I is in its frame. -/
theorem addToIndexWrapsAtSixteenBits : Obligations.AddToIndexWrapsAtSixteenBits := by
  intro x s
  refine ⟨_, rfl, ?_, rfl, exec_frame (.addI x) s _ rfl⟩
  rw [State.advance_i, State.setI_i, BitVec.toNat_add, widen_toNat]

end Sys2Proof.Machine
end

section
/-! Display (spec/44_display.md): what CLS and DRW leave on it. -/

namespace Sys2Proof.Machine

theorem State.pixel_show (s : State) (fb : FrameBuffer) (col : Fin 64) (row : Fin 32) :
    (s.show fb).pixel col row = fbPixel fb row col := rfl

/-! ## DRW (R191 to R193) -/

theorem exec_drw_succeeds (x y : Reg) (n : Nibble) (s : State) (haccess : s.accessible n.toNat) :
    ∃ t : State, exec (.drw x y n) s = .next t := by
  obtain ⟨sprite, hread⟩ := s.memReads_succeeds _ _ (s.accessible_resolves _ haccess)
  exact ⟨_, by rw [exec, execDrw, hread]⟩

/-- A DRW that completes has read its n sprite bytes and shows the sprite drawn from them. -/
theorem exec_drw_reads {x y : Reg} {n : Nibble} {s t : State} (h : exec (.drw x y n) s = .next t) :
    ∃ sprite d, s.memReads (s.indexed 0) n.toNat = .ok sprite ∧ sprite.length ≤ 32 ∧
      d = drawSprite s.fb (s.getV x) (s.getV y) sprite ∧
      t = ((s.show d.fb).setV flagReg (flagByte d.coll)).advance := by
  cases hread : s.memReads (s.indexed 0) n.toNat with
  | ok sprite =>
    have hlen : sprite.length = n.toNat := (s.memReads_ok _ _ sprite hread).1
    have hn : n.toNat < 16 := n.isLt
    rw [exec, execDrw, hread] at h
    exact ⟨sprite, _, rfl, by omega, rfl, (Host.Outcome.next.inj h).symm⟩
  | error f =>
    rw [exec, execDrw, hread] at h
    cases h

/-- DRW toggles the pixels that its set sprite bits land on. -/
theorem pixel_exec_drw {x y : Reg} {n : Nibble} {s t : State} (h : exec (.drw x y n) s = .next t) (col : Fin 64)
    (row : Fin 32) : t.pixel col row = true ↔ (s.pixel col row = true ↔ ¬ s.drawsOn x y n col row) := by
  obtain ⟨sprite, d, hread, hlen, rfl, rfl⟩ := exec_drw_reads h
  rw [s.drawsOn_iff x y n sprite hread, State.pixel_advance, State.pixel_setV, State.pixel_show]
  exact drawSprite_pixel s.fb _ _ sprite hlen row col

/-- VF after DRW is the collision flag: whether a set sprite bit landed on a pixel that was on. -/
theorem getV_exec_drw_flag {x y : Reg} {n : Nibble} {s t : State} (h : exec (.drw x y n) s = .next t) :
    ∃ coll : Bool, t.getV 15#4 = flagByte coll ∧
      (coll = true ↔ ∃ (col : Fin 64) (row : Fin 32), s.drawsOn x y n col row ∧ s.pixel col row = true) := by
  obtain ⟨sprite, d, hread, hlen, rfl, rfl⟩ := exec_drw_reads h
  refine ⟨_, State.getV_setV_same _ flagReg _, ?_⟩
  simp only [s.drawsOn_iff x y n sprite hread]
  exact drawSprite_coll s.fb _ _ sprite hlen

theorem flagByte_toNat_eq_one_iff (c : Bool) : (flagByte c).toNat = 1 ↔ c = true := by simp

theorem flagByte_toNat_eq_zero_or_one (c : Bool) : (flagByte c).toNat = 0 ∨ (flagByte c).toNat = 1 := by
  cases c
  · exact .inl rfl
  · exact .inr rfl

/-- The pixels that a sprite lands on depend on memory, I, the coordinates and the configuration only. -/
theorem State.drawsOn_congr {s u : State} {x y : Reg} (hmem : u.mem = s.mem) (hi : u.i = s.i) (hcfg : u.cfg = s.cfg)
    (hx : u.getV x = s.getV x) (hy : u.getV y = s.getV y) (n : Nibble) (col : Fin 64) (row : Fin 32) :
    u.drawsOn x y n col row ↔ s.drawsOn x y n col row := by
  simp only [State.drawsOn, State.hitsByte_congr hi hcfg, State.byteAt_congr hmem hcfg, hx, hy]

/-! ## The obligations -/

/-- Settles O36: DRW draws the sprite it read, so pixels and VF are those of `drawSprite`, and the frame keeps the rest. -/
theorem drawTogglesTheSpritePixels : Obligations.DrawTogglesTheSpritePixels := by
  intro x y n s haccess
  obtain ⟨t, h⟩ := exec_drw_succeeds x y n s haccess
  obtain ⟨coll, hflag, hcoll⟩ := getV_exec_drw_flag h
  refine ⟨t, h, pixel_exec_drw h, ?_, ?_, ?_, ?_, exec_frame (.drw x y n) s t h⟩
  · rw [hflag]
    exact flagByte_toNat_eq_zero_or_one coll
  · rw [hflag]
    exact (flagByte_toNat_eq_one_iff coll).trans hcoll
  all_goals
    obtain ⟨d, rfl⟩ := execDrw_next x y n s t h
    rfl

/-- Settles O37: both draws toggle the same pixels, and a pixel toggled twice is as before. -/
theorem drawingTwiceRestoresTheDisplay : Obligations.DrawingTwiceRestoresTheDisplay := by
  intro x y n s t u r hfirst hfb hmem hi hcfg hx hy hsecond col row
  have hbetween : u.pixel col row = t.pixel col row := by rw [State.pixel, hfb, State.pixel]
  have htoggle := pixel_exec_drw hfirst col row
  have hback := pixel_exec_drw hsecond col row
  rw [State.drawsOn_congr hmem hi hcfg hx hy, hbetween, htoggle] at hback
  have htwice : ((s.pixel col row = true ↔ ¬ s.drawsOn x y n col row) ↔ ¬ s.drawsOn x y n col row) ↔
      s.pixel col row = true := by tauto
  exact Bool.eq_iff_iff.mpr (hback.trans htwice)

/-- Settles O35: the word is one line of the decoder, and CLS shows the blank display. -/
theorem clearTurnsEveryPixelOff : Obligations.ClearTurnsEveryPixelOff :=
  ⟨rfl, fun s => ⟨_, rfl, fun col row => fbPixel_blank row col, rfl, rfl, exec_frame .cls s _ rfl⟩⟩

end Sys2Proof.Machine
end

section
/-! Keypad and timers (spec/45_keypad_timers.md): the key-skips by the key they name, the timer registers, and the key wait from its
entry through what may happen in it to the press that ends it. -/

namespace Sys2Proof.Machine

/-! ## The key-skips (R200, R201, R206) -/

/-- Under `KEY_OOB = fault` an index above 15 names no key. -/
theorem State.keyOf_unusable (s : State) (x : Reg) (hfault : s.cfg.keyOob = .fault) (hbig : 15 < (s.getV x).toNat) :
    s.keyOf x = .error .keyIndexOutOfRange := by
  have hindex : s.keyIndex (s.getV x) = .error .keyIndexOutOfRange := by
    rw [State.keyIndex, dif_neg (Nat.not_le.mpr hbig), hfault]
  rw [State.keyOf, hindex]

theorem exec_keySkips_of_key {x : Reg} {s : State} {pressed : Bool} (hkey : s.keyOf x = .ok pressed) :
    exec (.skp x) s = .next (s.skipIf pressed) ∧ exec (.sknp x) s = .next (s.skipIf !pressed) := by
  simp only [exec, execSkp, execSknp, hkey, and_self]

theorem exec_keySkips_of_no_key {x : Reg} {s : State} {f : Fault} (hkey : s.keyOf x = .error f) :
    exec (.skp x) s = .fault f ∧ exec (.sknp x) s = .fault f := by
  simp only [exec, execSkp, execSknp, hkey, and_self]

theorem State.skipIf_not_pc (s : State) (c : Bool) :
    (s.skipIf !c).pc = if c = true then s.pc + 2 else s.pc + 4 := by
  cases c <;> rfl

/-! ## The sound output (R28, R243) -/

theorem State.soundActive_iff (s : State) : s.soundActive = true ↔ 0 < s.st.toNat := by
  rw [State.soundActive, bne_iff_ne, Nat.pos_iff_ne_zero, ne_eq, ne_eq, ← BitVec.toNat_inj]
  rfl

/-! ## A tick (R236) -/

@[simp] theorem State.tickTimers_pc (s : State) : s.tickTimers.pc = s.pc := rfl

theorem State.tickTimers_frame (s : State) : Unchanged { dt := true, st := true } s s.tickTimers :=
  { Unchanged.refl {} s with dt := nofun, st := nofun }

/-! ## `set_key` (R239, R240): one equation per case -/

/-- An index above 15 is only reported (R224). -/
theorem State.setKey_of_invalid (s : State) (index : Nat) (pressed : Bool) (hindex : 15 < index) :
    s.setKey index pressed = s.raise (.invalidKeyIndex index) :=
  dif_neg (Nat.not_le.mpr hindex)

/-- A key event that is no press in a wait only writes the latch. -/
theorem State.setKey_of_latch (s : State) (index : Nat) (pressed : Bool) (hindex : index ≤ 15)
    (hnoend : ¬ (s.mode = .waitingForKey ∧ pressed = true)) :
    s.setKey index pressed = { s with key := s.key.set index pressed (Nat.lt_succ_of_le hindex) } :=
  (dif_pos hindex).trans (if_neg hnoend)

/-- A press in a wait writes the latch and ends the wait, whatever the latch held (D34). -/
theorem State.setKey_of_press_in_wait (s : State) (index : Nat) (hindex : index ≤ 15) (hwait : s.mode = .waitingForKey) :
    s.setKey index true = { s with key := s.key.set index true (Nat.lt_succ_of_le hindex) }.resume index :=
  (dif_pos hindex).trans (if_pos ⟨hwait, rfl⟩)

/-! ## What may happen in a wait, and its end -/

/-- A release changes nothing but the latch, or puts out the report of its index; so it ends no wait (R203 c). -/
theorem State.release_frame (s : State) (index : Nat) :
    (s.setKey index false).pc = s.pc ∧ Unchanged { key := true, events := true } s (s.setKey index false) := by
  rcases Nat.lt_or_ge 15 index with hinvalid | hindex
  · rw [s.setKey_of_invalid index false hinvalid]
    exact ⟨rfl, { Unchanged.refl {} s with key := nofun, events := nofun }⟩
  · rw [s.setKey_of_latch index false hindex (by simp)]
    exact ⟨rfl, { Unchanged.refl {} s with key := nofun, events := nofun }⟩

@[simp] theorem State.resume_mode (s : State) (index : Nat) : (s.resume index).mode = .running := rfl

@[simp] theorem State.resume_pc (s : State) (index : Nat) : (s.resume index).pc = s.pc + 2 := rfl

theorem State.getV_resume (s : State) (index : Nat) (r : Reg) :
    (s.resume index).getV r = if r = s.waitReg then BitVec.ofNat 8 index else s.getV r :=
  s.getV_setV s.waitReg r _

/-- The state of a wait for a key to be put into `V[x]`: the PC and the registers are those of the state `s` in which LD Vx,K
ran (R203). -/
structure WaitsSince (x : Reg) (s u : State) : Prop where
  mode : u.mode = .waitingForKey
  waitReg : u.waitReg = x
  pc : u.pc = s.pc
  regs : ∀ r : Reg, u.getV r = s.getV r

theorem exec_ldVxK_waits (x : Reg) (s t : State) (h : exec (.ldVxK x) s = .next t) : WaitsSince x s t := by
  obtain rfl := Host.Outcome.next.inj h
  exact ⟨rfl, rfl, rfl, fun _ => rfl⟩

/-- What leaves MODE, WAITREG, PC and the registers as they are keeps the wait. -/
theorem WaitsSince.of_unchanged {x : Reg} {s u w : State} {c : Changes} (hu : WaitsSince x s u) (h : Unchanged c u w)
    (hpc : w.pc = u.pc) (hmode : c.mode = false) (hwaitReg : c.waitReg = false) (hregs : c.regs = []) :
    WaitsSince x s w where
  mode := (h.mode hmode).trans hu.mode
  waitReg := (h.waitReg hwaitReg).trans hu.waitReg
  pc := hpc.trans hu.pc
  regs r := (h.regs r (by simp [hregs])).trans (hu.regs r)

theorem WaitsSince.release {x : Reg} {s u : State} (hu : WaitsSince x s u) (index : Nat) :
    WaitsSince x s (u.setKey index false) :=
  hu.of_unchanged (u.release_frame index).2 (u.release_frame index).1 rfl rfl rfl

theorem WaitsSince.tick {x : Reg} {s u : State} (hu : WaitsSince x s u) : WaitsSince x s u.tickTimers :=
  hu.of_unchanged u.tickTimers_frame u.tickTimers_pc rfl rfl rfl

theorem WaitsSince.run {x : Reg} {s u w : State} (hu : WaitsSince x s u) (k : Nat)
    (h : Host.Core.run core k u = .next w) : WaitsSince x s w := by
  have hidle : Host.Core.run core k u = .next u := run_of_not_running k u (by simp [hu.mode])
  obtain rfl := Host.Outcome.next.inj (hidle.symm.trans h)
  exact hu

/-- The press that ends the wait: the index goes to `V[x]`, and PC to the instruction after LD Vx,K (R239). -/
theorem WaitsSince.press {x : Reg} {s u : State} (hu : WaitsSince x s u) {index : Nat} (hindex : index ≤ 15) :
    (u.setKey index true).mode = .running ∧ ((u.setKey index true).getV x).toNat = index ∧
      (u.setKey index true).pc = s.pc + 2 ∧ ∀ r : Reg, r ≠ x → (u.setKey index true).getV r = s.getV r := by
  rw [u.setKey_of_press_in_wait index hindex hu.mode]
  refine ⟨State.resume_mode _ _, ?_, ?_, fun r hr => ?_⟩
  · rw [State.getV_resume, if_pos hu.waitReg.symm, BitVec.toNat_ofNat]
    exact Nat.mod_eq_of_lt (by omega)
  · rw [State.resume_pc, hu.pc]
  · rw [State.getV_resume, if_neg (by simpa [hu.waitReg] using hr)]
    exact hu.regs r

/-! ## The obligations -/

/-- Settles O43: the wait that LD Vx,K enters is kept by a release, a tick and any steps, and ended by the press. -/
theorem keyWaitRoundTrip : Obligations.KeyWaitRoundTrip := by
  intro x s t u steps released pressed hpressed henter hrun
  have hentered := exec_ldVxK_waits x s t henter
  have hstill := (hentered.release released).tick.run steps hrun
  exact hstill.press hpressed

/-- Settles O38: a usable index names the key of its low nibble, and each skip is `skipIf` of that key or of its negation. -/
theorem keySkipsTestTheNamedKey : Obligations.KeySkipsTestTheNamedKey := by
  intro x s k husable hk
  obtain ⟨hskp, hsknp⟩ := exec_keySkips_of_key (s.keyOf_usable x k husable hk)
  exact ⟨⟨_, hskp, rfl, exec_frame (.skp x) s _ hskp⟩, ⟨_, hsknp, s.skipIf_not_pc _, exec_frame (.sknp x) s _ hsknp⟩⟩

/-- Settles O39: both skips stop where the index names no key. -/
theorem unusableKeyIndexFaults : Obligations.UnusableKeyIndexFaults := fun x s hfault hbig =>
  exec_keySkips_of_no_key (s.keyOf_unusable x hfault hbig)

/-- Settles O40: each direction is one assignment and the advance. -/
theorem delayTimerIsReadAndWritten : Obligations.DelayTimerIsReadAndWritten := fun x s =>
  ⟨⟨_, rfl, s.getV_setV_same x s.dt, rfl, exec_frame (.ldVxDT x) s _ rfl⟩,
    ⟨_, rfl, rfl, rfl, exec_frame (.ldDTVx x) s _ rfl⟩⟩

/-- Settles O41: the sound output follows the value that ST now holds. -/
theorem soundTimerIsWritten : Obligations.SoundTimerIsWritten := fun x s =>
  ⟨_, rfl, rfl, State.soundActive_iff _, rfl, exec_frame (.ldSTVx x) s _ rfl⟩

/-- Settles O42: the wait is entered without a look at `KEY`, and the frame keeps the rest. -/
theorem keyWaitIsEntered : Obligations.KeyWaitIsEntered := fun x s =>
  have hwaits := exec_ldVxK_waits x s _ rfl
  ⟨_, rfl, hwaits.mode, hwaits.waitReg, hwaits.pc, exec_frame (.ldVxK x) s _ rfl⟩

end Sys2Proof.Machine
end

section
/-! Conditions and the other transactions (spec/60_exceptions.md): the stack conditions, what a transaction does to MODE and puts
out, ticks, `set_key`, `clear_dirty` and the accessors. -/

namespace Sys2Proof.Machine

/-! ## CALL and RET that halt (R222, R223; D3) -/

theorem exec_call_of_full (nnn : Imm12) (s : State) (full : s.sp.val = 16) :
    exec (.call nnn) s = .next (s.raise .stackOverflow) := by
  change execCall nnn s = _
  rw [execCall, s.push_of_full _ (by omega)]

theorem exec_ret_of_empty (s : State) (empty : s.sp.val = 0) : exec .ret s = .next (s.raise .stackUnderflow) := by
  change execRet s = _
  rw [execRet, s.pop_of_empty (by omega)]

/-- A report changes nothing but MODE and the events. -/
theorem State.raise_frame (s : State) (e : Event) : Unchanged { mode := true, events := true } s (s.raise e) :=
  { Unchanged.refl {} s with mode := nofun, events := nofun }

theorem State.oneEvent_raise (s : State) (e : Event) : OneEvent e.code s (s.raise e) := ⟨e, rfl, rfl⟩

/-- Settles O19: each condition is a report, whose frame is MODE and the events. -/
theorem stackConditionsHalt : Obligations.StackConditionsHalt := fun nnn s =>
  ⟨fun full => ⟨_, exec_call_of_full nnn s full, rfl, s.oneEvent_raise .stackOverflow, rfl, s.raise_frame _⟩,
    fun empty => ⟨_, exec_ret_of_empty s empty, rfl, s.oneEvent_raise .stackUnderflow, rfl, s.raise_frame _⟩⟩

/-! ## `load_program` and `set_key`: MODE and the events (R225, R239) -/

/-- The events put out are those of before, or one more (R231). -/
def AtMostOneReport (s t : State) : Prop := t.events = s.events ∨ ∃ e : Event, t.events = e :: s.events

/-- A program load puts out nothing or the report of its length, which is not fatal; so it leaves MODE. -/
theorem State.loadProgram_report (s : State) (bytes : List Byte) :
    (s.loadProgram bytes).mode = s.mode ∧
      AtMostOneReport s (s.loadProgram bytes) := by
  have copied := s.copyBytes_frame 0x200 (bytes.take programMax)
  unfold State.loadProgram
  split
  · rw [copied]; exact ⟨rfl, .inr ⟨_, rfl⟩⟩
  · rw [copied]; exact ⟨rfl, .inl rfl⟩

/-- A key event that is no press of a key in a wait leaves MODE, and puts out nothing or the report of its index. -/
theorem State.setKey_report (s : State) (index : Nat) (pressed : Bool)
    (hnoend : ¬ (index ≤ 15 ∧ s.mode = .waitingForKey ∧ pressed = true)) :
    (s.setKey index pressed).mode = s.mode ∧
      AtMostOneReport s (s.setKey index pressed) := by
  rcases Nat.lt_or_ge 15 index with hinvalid | hindex
  · rw [s.setKey_of_invalid index pressed hinvalid]
    exact ⟨rfl, .inr ⟨_, rfl⟩⟩
  · rw [s.setKey_of_latch index pressed hindex fun hend => hnoend ⟨hindex, hend⟩]
    exact ⟨rfl, .inl rfl⟩

/-! ## MODE and the events in every transaction (R227 to R234) -/

/-- What a transaction can do to MODE and what it then puts out. -/
inductive Transition (s t : State) : Transaction → Prop
  /-- `reset` (R228; D17). -/
  | resets (mode : t.mode = .running) (events : t.events = s.events) : Transition s t .reset
  /-- MODE stays, with at most one report; in a wait, no press of a key does so (R240). -/
  | keeps {a : Transaction} (notReset : a ≠ .reset) (mode : t.mode = s.mode) (events : AtMostOneReport s t)
      (noPress : s.mode = .waitingForKey → ∀ k, k ≤ 15 → a ≠ .setKey k true) : Transition s t a
  /-- A press ends a wait (R239; D34). -/
  | resumes (index : Nat) (valid : index ≤ 15) (waiting : s.mode = .waitingForKey) (mode : t.mode = .running)
      (events : t.events = s.events) : Transition s t (.setKey index true)
  /-- LD Vx,K enters a wait (R203). -/
  | waits (x : Reg) (runs : s.runs (.ldVxK x)) (mode : t.mode = .waitingForKey) (events : t.events = s.events) :
      Transition s t .step
  /-- CALL on a full stack (R222). -/
  | overflows (nnn : Imm12) (runs : s.runs (.call nnn)) (full : s.sp.val = 16) (report : t = s.raise .stackOverflow) :
      Transition s t .step
  /-- RET on an empty stack (R223). -/
  | underflows (runs : s.runs .ret) (empty : s.sp.val = 0) (report : t = s.raise .stackUnderflow) : Transition s t .step

theorem State.runs.running {s : State} {i : Instr} (h : s.runs i) : s.mode = .running := h.1

/-- A step that leaves MODE. -/
theorem Transition.stepKeeps {s t : State} (mode : t.mode = s.mode) (events : AtMostOneReport s t) :
    Transition s t .step :=
  .keeps nofun mode events nofun

/-- The instructions whose frame holds MODE or the events are RET, CALL, SYS and LD Vx,K. -/
theorem exec_transition (i : Instr) (s t : State) (runs : s.runs i) (h : exec i s = .next t) : Transition s t .step := by
  cases i with
  | ret =>
    rcases Nat.eq_zero_or_pos s.sp.val with empty | live
    · exact .underflows runs empty (Host.Outcome.next.inj (h.symm.trans (exec_ret_of_empty s empty)))
    · obtain rfl := Host.Outcome.next.inj ((exec_ret_of_live s live).symm.trans h)
      exact .stepKeeps rfl (.inl rfl)
  | call nnn =>
    rcases Nat.lt_succ_iff_lt_or_eq.mp s.sp.isLt with room | full
    · obtain rfl := Host.Outcome.next.inj ((exec_call_of_room nnn s room).symm.trans h)
      exact .stepKeeps rfl (.inl rfl)
    · exact .overflows nnn runs full (Host.Outcome.next.inj (h.symm.trans (exec_call_of_full nnn s full)))
  | sys nnn =>
    obtain rfl := Host.Outcome.next.inj h
    exact .stepKeeps rfl (.inr ⟨_, rfl⟩)
  | ldVxK x =>
    obtain rfl := Host.Outcome.next.inj h
    exact .waits x runs rfl rfl
  | _ =>
    have frame := exec_frame _ s t h
    exact .stepKeeps (frame.mode rfl) (.inl (frame.events rfl))

theorem step_transition (s t : State) (h : step s = .next t) : Transition s t .step := by
  rcases step_next s t h with ⟨-, rfl⟩ | ⟨-, w, -, -, rfl⟩ | ⟨i, runs, he⟩
  · exact .stepKeeps rfl (.inl rfl)
  · exact .stepKeeps rfl (.inr ⟨_, rfl⟩)
  · exact exec_transition i s t runs he

theorem State.setKey_transition (s : State) (index : Nat) (pressed : Bool) :
    Transition s (s.setKey index pressed) (.setKey index pressed) := by
  by_cases hend : index ≤ 15 ∧ s.mode = .waitingForKey ∧ pressed = true
  · obtain ⟨hindex, hwait, rfl⟩ := hend
    have hpress := s.setKey_of_press_in_wait index hindex hwait
    exact .resumes index hindex hwait (by rw [hpress]; rfl) (by rw [hpress]; rfl)
  · obtain ⟨mode, events⟩ := s.setKey_report index pressed hend
    refine .keeps nofun mode events fun hwait k hk he => ?_
    obtain ⟨rfl, rfl⟩ := Transaction.setKey.inj he
    exact hend ⟨hk, hwait, rfl⟩

/-- Every transaction makes one of the transitions. -/
theorem transact_transition (a : Transaction) (s t : State) (h : transact a s = .next t) : Transition s t a := by
  cases a with
  | step => exact step_transition s t h
  | reset => obtain rfl := Host.Outcome.next.inj h; exact .resets rfl rfl
  | setKey index pressed => obtain rfl := Host.Outcome.next.inj h; exact s.setKey_transition index pressed
  | loadProgram bytes =>
    obtain rfl := Host.Outcome.next.inj h
    obtain ⟨mode, events⟩ := s.loadProgram_report bytes
    exact .keeps nofun mode events nofun
  | _ => obtain rfl := Host.Outcome.next.inj h; exact .keeps nofun rfl (.inl rfl) nofun

/-- Settles O57: each transition is a row of the table; those of a step that changes MODE run in RUNNING. -/
theorem modeTransitionsAreTheTable : Obligations.ModeTransitionsAreTheTable := by
  intro a s t h
  cases transact_transition a s t h with
  | resets mode => exact ⟨fun _ => mode, fun hne => absurd rfl hne, fun _ => .inl mode, fun _ hne => absurd rfl hne⟩
  | keeps notReset mode _ noPress =>
    exact ⟨fun he => absurd he notReset, fun _ hm => mode.trans hm, fun hm => .inl (mode.trans hm),
      fun hm _ => .inr ⟨mode.trans hm, noPress hm⟩⟩
  | resumes index valid waiting mode =>
    exact ⟨nofun, by simp [waiting], by simp [waiting], fun _ _ => .inl ⟨mode, index, valid, rfl⟩⟩
  | waits x runs mode =>
    exact ⟨nofun, by simp [runs.running], fun _ => .inr (.inl ⟨rfl, mode, x, runs⟩), by simp [runs.running]⟩
  | overflows nnn runs full report =>
    have halts : t.mode = .halted := by rw [report]; rfl
    exact ⟨nofun, fun _ _ => halts, fun _ => .inr (.inr ⟨rfl, halts, .inl ⟨full, nnn, runs⟩⟩), by simp [runs.running]⟩
  | underflows runs empty report =>
    have halts : t.mode = .halted := by rw [report]; rfl
    exact ⟨nofun, fun _ _ => halts, fun _ => .inr (.inr ⟨rfl, halts, .inr ⟨empty, runs⟩⟩), by simp [runs.running]⟩

/-- Settles O58: of the transitions only the two stack conditions make MODE HALTED, and each is one report. -/
theorem atMostOneEventPerTransaction : Obligations.AtMostOneEventPerTransaction := by
  intro a s t h
  cases transact_transition a s t h with
  | resets mode events => exact ⟨.inl events, by simp [mode]⟩
  | keeps _ mode events => exact ⟨events, fun hne hm => absurd (mode.symm.trans hm) hne⟩
  | resumes _ _ _ mode events => exact ⟨.inl events, by simp [mode]⟩
  | waits _ _ mode events => exact ⟨.inl events, by simp [mode]⟩
  | overflows _ _ _ report =>
    obtain rfl := report
    exact ⟨.inr ⟨_, rfl⟩, fun _ _ => .inl (s.oneEvent_raise .stackOverflow)⟩
  | underflows _ _ report =>
    obtain rfl := report
    exact ⟨.inr ⟨_, rfl⟩, fun _ _ => .inr (s.oneEvent_raise .stackUnderflow)⟩

/-! ## Ticks (R235, R236) -/

theorem countDown_toNat (b : Byte) : (countDown b).toNat = b.toNat - 1 := by
  unfold countDown
  split
  · next h => simp [h]
  · next h => bv_omega

theorem iterate_countDown_toNat (n : Nat) (b : Byte) : (countDown^[n] b).toNat = b.toNat - n := by
  induction n with
  | zero => rfl
  | succ n ih => rw [Function.iterate_succ_apply', countDown_toNat, ih, Nat.sub_sub]

/-- Ticks count each timer down on its own, and touch nothing else. -/
theorem State.iterate_tickTimers (n : Nat) (s : State) :
    State.tickTimers^[n] s = { s with dt := countDown^[n] s.dt, st := countDown^[n] s.st } := by
  induction n with
  | zero => rfl
  | succ n ih => simp only [Function.iterate_succ_apply', ih, State.tickTimers]

/-- Settles O44: N ticks are N countdowns of each timer, each of which takes 1 off a timer above 0. -/
theorem ticksCountDownToZero : Obligations.TicksCountDownToZero := by
  rintro n s t rfl
  rw [State.iterate_tickTimers]
  exact ⟨iterate_countDown_toNat n s.dt, iterate_countDown_toNat n s.st, rfl,
    { Unchanged.refl {} s with dt := nofun, st := nofun }⟩

/-! ## `set_key` (R224, R239, R240) -/

/-- The latch follows the event, in a wait as outside one. -/
theorem State.setKey_key (s : State) (index : Nat) (pressed : Bool) (hindex : index ≤ 15) :
    (s.setKey index pressed).key = s.key.set index pressed (Nat.lt_succ_of_le hindex) := by
  by_cases hend : s.mode = .waitingForKey ∧ pressed = true
  · obtain ⟨hwait, rfl⟩ := hend
    rw [s.setKey_of_press_in_wait index hindex hwait]; rfl
  · rw [s.setKey_of_latch index pressed hindex hend]

theorem State.resume_frame (s : State) (index : Nat) :
    Unchanged { regs := [s.waitReg], mode := true } s (s.resume index) :=
  { Unchanged.refl {} s with
    regs := fun r hr => (s.getV_resume index r).trans (if_neg (by simpa using hr))
    mode := nofun }

/-- Settles O45: the three cases of `set_key`, and the latch in the two of a valid index. -/
theorem setKeyLatchesAndEndsAWait : Obligations.SetKeyLatchesAndEndsAWait := by
  intro index pressed s
  refine ⟨fun hinvalid => ?invalid, fun hindex k => ?latch, fun hindex hnoend => ?noWait, fun hindex hwait hpress => ?press⟩
  case invalid =>
    rw [s.setKey_of_invalid index pressed hinvalid]
    exact ⟨s.oneEvent_raise (.invalidKeyIndex index), rfl, { s.raise_frame _ with mode := fun _ => rfl }⟩
  case latch => simp [s.setKey_key index pressed hindex, Vector.getElem_set, eq_comm]
  case noWait =>
    rw [s.setKey_of_latch index pressed hindex hnoend]
    exact ⟨rfl, { Unchanged.refl {} s with key := nofun }⟩
  case press =>
    subst hpress
    have ends : WaitsSince s.waitReg s s := ⟨hwait, rfl, rfl, fun _ => rfl⟩
    obtain ⟨hmode, hvalue, hpc, -⟩ := ends.press hindex
    refine ⟨hvalue, hpc, hmode, ?_⟩
    rw [s.setKey_of_press_in_wait index hindex hwait]
    exact { State.resume_frame { s with key := _ } index with key := nofun }

/-! ## `clear_dirty` and the accessors (R241 to R243) -/

theorem State.clearDirty_frame (s : State) : Unchanged { dirty := true } s s.clearDirty :=
  { Unchanged.refl {} s with dirty := nofun }

theorem State.soundActive_eq (s : State) : s.soundActive = decide (0 < s.st.toNat) :=
  Bool.eq_iff_iff.mpr (s.soundActive_iff.trans decide_eq_true_iff.symm)

/-- Settles O48: `clear_dirty` by its frame, and `sound_active` as a comparison with 0. -/
theorem clearDirtyAndAccessors : Obligations.ClearDirtyAndAccessors := by
  intro col row s
  refine ⟨⟨_, rfl, rfl, rfl, s.clearDirty_frame⟩, fun a ha => ?_, rfl, rfl, congrArg Response.bit s.soundActive_eq, rfl⟩
  simp only [List.mem_cons, List.not_mem_nil, or_false] at ha
  rcases ha with rfl | rfl | rfl | rfl <;> rfl

end Sys2Proof.Machine
end

section
/-! What `load_program` leaves in the state (spec/70_reset_and_hazards.md R262), and the statement of how a step stops
(spec/93_implementation_defined.md U1 to U3). -/

namespace Sys2Proof.Machine

/-! ## `load_program` (R225, R262) -/

/-- A load writes memory and the events and no more: a report of a long image is not fatal, so MODE stays (D19). -/
theorem State.loadProgram_eq (s : State) (bytes : List Byte) :
    s.loadProgram bytes = { s with
      mem := (s.copyBytes 0x200 (bytes.take programMax)).mem
      events := if programMax < bytes.length then .programTooLarge bytes.length :: s.events else s.events } := by
  have copied := s.copyBytes_frame 0x200 (bytes.take programMax)
  unfold State.loadProgram
  split
  case isTrue => rw [copied]; rfl
  case isFalse => exact copied

theorem State.loadProgram_frame (s : State) (bytes : List Byte) :
    Unchanged { mem := true, events := true } s (s.loadProgram bytes) := by
  rw [s.loadProgram_eq]
  exact { Unchanged.refl {} s with mem := nofun, events := nofun }

theorem State.byteAt_loadProgram (s : State) (bytes : List Byte) (a : Nat) :
    (s.loadProgram bytes).byteAt a = (s.copyBytes 0x200 (bytes.take programMax)).byteAt a := by
  rw [s.loadProgram_eq, s.copyBytes_frame]
  rfl

theorem State.loadProgram_events_of_fits (s : State) (bytes : List Byte) (fits : bytes.length ≤ programMax) :
    (s.loadProgram bytes).events = s.events := by
  rw [s.loadProgram_eq]
  exact if_neg (Nat.not_lt.mpr fits)

theorem State.oneEvent_loadProgram (s : State) (bytes : List Byte) (tooLarge : programMax < bytes.length) :
    OneEvent 5 s (s.loadProgram bytes) := by
  refine ⟨.programTooLarge bytes.length, rfl, ?_⟩
  rw [s.loadProgram_eq]
  exact if_pos tooLarge

/-- Settles O46: memory is that of the copy of the first 3584 bytes, and the rest is the frame and the events of a load. -/
theorem loadProgramCopiesTheImage : Obligations.LoadProgramCopiesTheImage := by
  intro bytes s t h
  obtain rfl := Host.Outcome.next.inj h
  refine ⟨rfl, fun k hk hmax => ?image, fun a ha => ?others, s.oneEvent_loadProgram bytes,
    s.loadProgram_events_of_fits bytes, by rw [s.loadProgram_eq], s.loadProgram_frame bytes⟩
  case image =>
    have hcopied : k < (bytes.take programMax).length := List.length_take ▸ Nat.lt_min.mpr ⟨hmax, hk⟩
    rw [s.byteAt_loadProgram, s.copyBytes_same 0x200 k _ hcopied, List.getElem_take]
  case others =>
    rw [s.byteAt_loadProgram]
    refine s.copyBytes_other 0x200 a _ (ha.imp_right fun above => ?_)
    rwa [List.length_take, Nat.min_comm]

/-! ## How a step can stop (U1 to U3) -/

/-- Settles O12: the fetch and the instructions are never refused and fault only under their parameters, so that with
neither at `fault` a next state is the one outcome left. -/
theorem stepStopsOnlyAsTheParametersSay : Obligations.StepStopsOnlyAsTheParametersSay := fun s =>
  ⟨step_not_refused s, step_fault s, State.total.step_next⟩

end Sys2Proof.Machine
end
